-- ==== Sys2Proof/Word.lean ====
section
/-! DEFINITION. The words the block handles, by width (spec/00_scope.md R9, R10; spec/10_state.md R33, R36, R38), and a
constructor of fixed-length vectors that Lean's kernel evaluates element by element. -/

namespace Sys2Proof

/-- Eight bits: one byte of the window, and the LINE operand of a command (R73). -/
abbrev Byte := BitVec 8

/-- A halfword, 16 bits (R9): a vertex color (R33) or a pixel (R38). -/
abbrev Half := BitVec 16

/-- A word, 32 bits (R9): a register, a PRAM word, and an int32 read through `BitVec.toInt` (R10). -/
abbrev Word := BitVec 32

/-- A byte offset into the block's window of 2^19 bytes (R7 ADDR_WIDTH, R44). -/
abbrev Offset := BitVec 19

/-- The vector of `f 0, …, f (n-1)`, built as one list so that an entry is reached without computing the others. -/
def tabulate {α : Type} (n : Nat) (f : Fin n → α) : Vector α n :=
  ⟨(List.ofFn f).toArray, by simp⟩

end Sys2Proof
end

