-- ==== Sys2Proof/Syntax.lean ====
section
/-! DEFINITION. What can be said to the block: its commands (spec/30_encoding.md R70 to R77), the events its one host port
and its reset input present to it (spec/43_command_interface.md R140, spec/70_reset_and_hazards.md R177), and the host-program
statements the spec writes programs in (spec/30_encoding.md R82 to R84). -/

namespace Sys2Proof

/-- The block's two commands, one constructor per row of spec/opcode_table.json (R74). LINE is an 8-bit field, neither
sign-extended nor scaled (R73), so every term has an encoding. -/
inductive Instr where
  /-- NOP, the word 0x0000_0000 (R75). -/
  | nop
  /-- DRAW_SCANLINE LINE, the word 0x0100_0000 | LINE (R76). -/
  | drawScanline (line : Byte)
  deriving DecidableEq, Repr

/-- One event at the block's edge: an access a host master presents at the port, by its address on the host bus (R44), or a
pulse of the reset input (R177). Masters carry no identity: the block sees one interleaving of their accesses (R59, R173). -/
inductive PortEvent where
  /-- A read of `width` bytes. -/
  | read (addr width : Nat)
  /-- A write of the low `width` bytes of `value`. -/
  | write (addr width : Nat) (value : Word)
  /-- The reset input is asserted and released; between the two the block performs no step (R177). -/
  | reset
  deriving DecidableEq, Repr

/-- A statement of a host program (R82). `label` and `bnz` act in the host only: the block sees the accesses. -/
inductive HostStmt where
  | wr32 (off value : Nat)
  | rd32 (off : Nat) (name : String)
  | rd16 (off : Nat) (name : String)
  | label (name : String)
  | bnz (name : String) (mask : Nat) (target : String)
  deriving DecidableEq, Repr

/-- A pseudo-statement of a host program (R83). -/
inductive PseudoStmt where
  | nop
  | draw (line : Nat)
  | waitIdle (label name : String)
  | setCount (n : Nat)
  | clrErr
  | poly (i kind : Nat)
  | vtx (i j : Nat) (x y z w : Int) (color : Nat)
  | pix (slot x : Nat) (name : String)
  deriving DecidableEq, Repr

end Sys2Proof
end

