-- ==== Sys2Proof/Config.lean ====
section
/-! DEFINITION. The parameters of spec/00_scope.md R7 as plain data, and the free values: what the spec leaves unspecified,
each an opaque constant that nothing in Lean can evaluate (spec/93_implementation_defined.md I2, I3, I6 to I9, I14). The
parameters' defaults stand in Machine/Tables.lean. -/

namespace Sys2Proof

/-- INTERP_ARITH (R7, R95, R97, R105). -/
inductive InterpArith where
  /-- Exact rational arithmetic, the default. -/
  | exact
  /-- IEEE 754 binary32, rounded to nearest even after every operation. -/
  | binary32
  deriving DecidableEq, Repr

/-- NORM_OVERFLOW (R7, R91). -/
inductive NormOverflow where
  /-- Exact intermediates, the result reduced modulo 2^32: the default. -/
  | wrap
  /-- Any int32 when the coordinate's magnitude is at least 2^23. -/
  | any
  deriving DecidableEq, Repr

/-- One row of QUAD_EDGE_TABLE (R122): the left edge a→b and the right edge c→d, as positions among the sorted vertices
(position 0 is the spec's v1). -/
structure QuadEdges where
  a : Fin 4
  b : Fin 4
  c : Fin 4
  d : Fin 4
  deriving DecidableEq, Repr

/-- The parameters a model takes as arguments (R7, R19), and the window's place on the host bus (R44). No step changes them. -/
structure Params where
  interpArith : InterpArith
  normOverflow : NormOverflow
  /-- QUAD_SORT_NET: the six compare-and-swap pairs in order (R111). -/
  quadSortNet : Vector (Fin 4 × Fin 4) 6
  /-- QUAD_EDGE_TABLE: the twelve rows in the order of R122's table. -/
  quadEdgeTable : Vector QuadEdges 12
  /-- MAX_POLYS, legal range 1..2048. -/
  maxPolys : Nat
  /-- Where the platform places the window. -/
  windowBase : Nat
  deriving DecidableEq, Repr

/-- FREE VALUE. A byte of PRAM that no host write has stored since the reset numbered `draw` (R42, R149, I6, I9). -/
opaque Config.freePramByte (draw addr : Nat) : Byte

/-- FREE VALUE. A line-cache pixel nothing has written since reset, or one a tainted draw left (R42, R144, I6, I8). -/
opaque Config.freePixel (draw slot x : Nat) : Half

/-- FREE VALUE. A depth after reset, or one a tainted draw left (R42, R144, I6, I8). -/
opaque Config.freeDepth (draw x : Nat) : Word

/-- FREE VALUE. Pixel `k` (0 or 1) of one read of the slot being drawn (R150, I7). -/
opaque Config.freeBusyRead (draw k : Nat) : Half

/-- FREE VALUE. How many port events may pass before an accepted DRAW_SCANLINE's engine step: any finite number (R145, I14). -/
opaque Config.engineDelay (draw : Nat) : Nat

/-- FREE VALUE. x' under NORM_OVERFLOW = ANY, a function of the vertex because normalize is pure (R91, R92, I3). -/
opaque Config.freeNormX (x y z w : Word) (color : Half) : Word

/-- FREE VALUE. y' under NORM_OVERFLOW = ANY (R91, R92, I3). -/
opaque Config.freeNormY (x y z w : Word) (color : Half) : Word

/-- FREE VALUE. A binary32 interpolation outside int32, a function of the operands because interpolate is pure (R98, R106, I2). -/
opaque Config.freeInterp (min max start current stop : Int) : Word

end Sys2Proof
end

