-- ==== Sys2Proof/WellFormed.lean ====
section
/-! DEFINITION. Which terms of the language are well formed: commands (spec/30_encoding.md R73), host-program statements
(R82 to R84), and the parameters' legal ranges (spec/00_scope.md R7, R111, spec/42_scanline_rasterizer.md R133). -/

namespace Sys2Proof

/-- A command's operand is in range (R73). The 8-bit field admits exactly 0..255, so no term of `Instr` fails this. -/
abbrev Instr.WellFormed : Instr → Prop
  | .nop => True
  | .drawScanline line => line.toNat ≤ 255

/-- `v` is a word's worth of unsigned number. -/
abbrev fitsWord (v : Nat) : Prop := v < 2 ^ 32

/-- `v` is an int32 (R10). -/
abbrev fitsInt32 (v : Int) : Prop := -2 ^ 31 ≤ v ∧ v < 2 ^ 31

/-- Offsets lie in the window and values in a word (R44, R82). -/
abbrev HostStmt.WellFormed : HostStmt → Prop
  | .wr32 off value => off < 2 ^ 19 ∧ fitsWord value
  | .rd32 off _ => off < 2 ^ 19
  | .rd16 off _ => off < 2 ^ 19
  | .label _ => True
  | .bnz _ mask _ => fitsWord mask

/-- Operands in the ranges R83 gives them; an assembler refuses a LINE outside 0..255 (R84). -/
abbrev PseudoStmt.WellFormed : PseudoStmt → Prop
  | .nop => True
  | .draw line => line ≤ 255
  | .waitIdle _ _ => True
  | .setCount n => fitsWord n
  | .clrErr => True
  | .poly i kind => i < 2048 ∧ fitsWord kind
  | .vtx i j x y z w color =>
      i < 2048 ∧ j < 4 ∧ fitsInt32 x ∧ fitsInt32 y ∧ fitsInt32 z ∧ fitsInt32 w ∧ fitsWord color
  | .pix slot x _ => slot < 48 ∧ x < 256

/-- One compare-and-swap on numbers, strict (R112): the check of a network below. -/
def netSwap (v : Vector Nat 4) (pq : Fin 4 × Fin 4) : Vector Nat 4 :=
  if v[pq.2] < v[pq.1] then (v.set pq.1 v[pq.2]).set pq.2 v[pq.1] else v

/-- A network sorts four numbers when it sorts every vector of zeros and ones. -/
def netSorts (net : Vector (Fin 4 × Fin 4) 6) : Bool :=
  (List.range 16).all fun n =>
    let v := net.toList.foldl netSwap #v[n % 2, n / 2 % 2, n / 4 % 2, n / 8 % 2]
    v[0] ≤ v[1] && v[1] ≤ v[2] && v[2] ≤ v[3]

/-- MAX_POLYS is in its legal range (R7). -/
abbrev Params.PolysInRange (p : Params) : Prop := 1 ≤ p.maxPolys ∧ p.maxPolys ≤ 2048

/-- The quad network compares each earlier position with a later one (R112) and sorts (R111). -/
abbrev Params.NetSorts (p : Params) : Prop :=
  (∀ pq ∈ p.quadSortNet.toList, pq.1 < pq.2) ∧ netSorts p.quadSortNet = true

/-- Every edge of the quad table goes from an earlier to a later sorted position (R133). -/
abbrev Params.EdgesDescend (p : Params) : Prop :=
  ∀ e ∈ p.quadEdgeTable.toList, e.a < e.b ∧ e.c < e.d

/-- The parameters are legal. -/
abbrev Params.WellFormed (p : Params) : Prop := p.PolysInRange ∧ p.NetSorts ∧ p.EdgesDescend

end Sys2Proof
end

