-- ==== Sys2Proof/Decode.lean ====
section
/-! DEFINITION. Byte order (spec/20_memory.md R52), the command word's fields (spec/30_encoding.md R70 to R73), the decoder,
total and rejecting by name (R77, R78), and the encoder (R75, R76). -/

namespace Sys2Proof

/-- The word whose byte at the lowest address is `b0`: the window is little-endian (R52). -/
def wordOfBytes (b0 b1 b2 b3 : Byte) : Word := b3 ++ b2 ++ b1 ++ b0

/-- Byte `k` of a word, byte 0 at the lowest address (R52). -/
def byteOfWord (w : Word) (k : Nat) : Byte := w.extractLsb' (8 * k) 8

/-- A word's four bytes in address order (R52). -/
def bytesOfWord (w : Word) : List Byte :=
  [byteOfWord w 0, byteOfWord w 1, byteOfWord w 2, byteOfWord w 3]

/-- OPCODE = word[31:24] (R71). -/
def opcodeField (w : Word) : Byte := w.extractLsb' 24 8

/-- RSVD = word[23:8] (R72). -/
def reservedField (w : Word) : Half := w.extractLsb' 8 16

/-- ARG = word[7:0] (R73). -/
def argField (w : Word) : Byte := w.extractLsb' 0 8

/-- Why a word is no command (R77, R79). -/
inductive Illegal where
  /-- RSVD is not 0. -/
  | reservedBits
  /-- OPCODE is 0x00 and ARG is not 0. -/
  | nopArgument
  /-- OPCODE is in 0x02..0xFF. -/
  | unknownOpcode
  /-- Not four bytes: every command is one 32-bit word (R79). -/
  | notOneWord
  deriving DecidableEq, Repr

/-- What decoding answers: exactly one of a command and ILLEGAL (R78). -/
inductive Decoded where
  | command (i : Instr)
  | illegal (why : Illegal)
  deriving DecidableEq, Repr

/-- The decoder of R78. -/
def decode (w : Word) : Decoded :=
  if reservedField w ≠ 0 then .illegal .reservedBits
  else if opcodeField w = 0x00 ∧ argField w = 0 then .command .nop
  else if opcodeField w = 0x01 then .command (.drawScanline (argField w))
  else if opcodeField w = 0x00 then .illegal .nopArgument
  else .illegal .unknownOpcode

/-- Decoding on any bytes, in address order (R52, R79). -/
def decodeBytes : List Byte → Decoded
  | [b0, b1, b2, b3] => decode (wordOfBytes b0 b1 b2 b3)
  | _ => .illegal .notOneWord

/-- The one format F-CMD: OPCODE in 31:24, RSVD = 0 in 23:8, ARG in 7:0 (R70). -/
def fCmd (opcode arg : Byte) : Word := opcode ++ (0 : Half) ++ arg

/-- The encoder of R75 and R76. -/
def encode : Instr → Word
  | .nop => fCmd 0x00 0x00
  | .drawScanline line => fCmd 0x01 line

/-- A command's bytes in address order (R52). -/
def encodeBytes (i : Instr) : List Byte := bytesOfWord (encode i)

/-- A decoded command, or none. -/
def Decoded.instr? : Decoded → Option Instr
  | .command i => some i
  | .illegal _ => none

/-- The command the decoder reads from `nbits` bits numbered as spec/opcode_table.json numbers them, the rest being 0,
laid out little-endian (R52). -/
def decodeTableWord (nbits w : Nat) : Option Instr :=
  (decodeBytes (bytesOfWord (BitVec.ofNat 32 (w % 2 ^ nbits)))).instr?

end Sys2Proof
end

