-- ==== Sys2Proof/Machine/Tables.lean ====
section
/-! DEFINITION. The fixed values and the default parameters of spec/00_scope.md R7: the quad sorting network of spec/42_scanline_rasterizer.md
R111, the quad edge table of R122, EXACT, WRAP, MAX_POLYS = 2048. -/

namespace Sys2Proof

/-! ## Fixed values of R7 (R8: each literal of the source is normative) -/

/-- LC_SLOTS, as CFG reads it (R22); the line cache's type has the same number of slots. -/
def lcSlots : Nat := 48

/-- SCREEN_H, as CFG reads it (R22). -/
def screenHeight : Nat := 192

/-- Z_SENTINEL = 2^31 - 1 (R36). -/
def zSentinel : Word := 0x7FFFFFFF

/-- A cleared pixel (R38, R107). -/
def clearPixel : Half := 0x0000

/-- NORM_X_SCALE (R87). -/
def normXScale : Int := 128

/-- NORM_X_OFFSET (R87). -/
def normXOffset : Int := 128

/-- NORM_Y_SCALE (R88). -/
def normYScale : Int := 96

/-- NORM_Y_OFFSET (R88). -/
def normYOffset : Int := 96

/-- The magnitude from which NORM_OVERFLOW = ANY leaves a coordinate open (R91). -/
def normAnyBound : Nat := 2 ^ 23

/-! ## Default parameters -/

/-- QUAD_SORT_NET's default (R111): (1,2),(1,3),(1,4),(2,3),(2,4),(3,4), positions counted from 0 here. -/
def defaultQuadSortNet : Vector (Fin 4 × Fin 4) 6 :=
  #v[(0, 1), (0, 2), (0, 3), (1, 2), (1, 3), (2, 3)]

/-- QUAD_EDGE_TABLE's default (R122), rows in the table's order; position 0 is v1. -/
def defaultQuadEdgeTable : Vector QuadEdges 12 :=
  #v[⟨0, 3, 0, 1⟩, ⟨0, 3, 1, 2⟩, ⟨0, 3, 2, 3⟩,
     ⟨0, 1, 0, 3⟩, ⟨1, 2, 0, 3⟩, ⟨2, 3, 0, 3⟩,
     ⟨0, 2, 0, 1⟩, ⟨0, 2, 1, 3⟩, ⟨2, 3, 1, 3⟩,
     ⟨0, 1, 0, 2⟩, ⟨1, 3, 0, 2⟩, ⟨1, 3, 2, 3⟩]

/-- Every parameter at its default (R7). DESIGN CHOICE for the window base, which R44 leaves to the platform: 0 (log entry 3). -/
def Params.default : Params where
  interpArith := .exact
  normOverflow := .wrap
  quadSortNet := defaultQuadSortNet
  quadEdgeTable := defaultQuadEdgeTable
  maxPolys := 2048
  windowBase := 0

end Sys2Proof
end

