-- ==== Sys2Proof/Machine/State.lean ====
section
/-! DEFINITION. The block's state (spec/10_state.md R18 to R43) as plain data, the parameters it is built with, the model's
own bookkeeping of agents and free values, and the state after reset (R42, spec/70_reset_and_hazards.md R177). -/

namespace Sys2Proof.Machine

/-- The flags of STATUS (R24), each one bit; the reserved bits read 0 and are not stored. -/
structure Status where
  /-- bit 0, R25 -/
  busy : Bool
  /-- bit 1, R26 -/
  lwValid : Bool
  /-- bit 8, R27, R160 -/
  illcmd : Bool
  /-- bit 9, R27, R161 -/
  cmdovf : Bool
  /-- bit 10, R27, R162 -/
  buserr : Bool
  deriving DecidableEq, Repr

/-- The fields of LC_LAST_WRITTEN (R29). -/
structure LastWritten where
  /-- bits 13:8 -/
  slot : BitVec 6
  /-- bits 7:0 -/
  line : Byte
  deriving DecidableEq, Repr

/-- Bytes by window offset, offsets strictly rising. An offset that is not listed has had no write since reset. -/
abbrev Memory := List Host.Cell

/-- The canonical form: offsets strictly rising. An unlisted offset holds no written value, so no entry repeats one. -/
abbrev Memory.wf (m : Memory) : Prop := (m.map Prod.fst).Pairwise (· < ·)

/-- Everything the spec gives the block, and below it what the model adds. -/
structure State where
  /-- The parameters of R7; no step changes them (R19). CFG (R22) is read from here. -/
  params : Params
  /-- STATUS, R24. -/
  status : Status
  /-- POLY_COUNT.COUNT, R28. -/
  polyCount : BitVec 12
  /-- LC_LAST_WRITTEN, R29. -/
  lastWritten : LastWritten
  /-- LC_LAST_CONSUMED.LINE, R30. -/
  lastConsumed : Byte
  /-- PEND_LINE, R39. -/
  pendLine : Byte
  /-- TAINT, R39. -/
  taint : Bool
  /-- PRAM, R31 to R35: the bytes the host has written since reset, by window offset (R48). -/
  pram : Memory
  /-- ZBUF, R36. -/
  zbuf : Vector Word 256
  /-- LC, R37, R38: 48 slots of 256 pixels. -/
  lc : Vector (Vector Half 256) 48
  /-- The model's own: which draw of free values the unwritten bytes of PRAM hold (R42). -/
  pramDraw : Nat
  /-- The model's own: the events the host masters and the reset input present, in the order the port takes them (R59). -/
  port : List PortEvent
  /-- The model's own: what the block has returned to the host's reads, newest first. -/
  replies : List Word
  /-- The model's own: how many more port events the pending DRAW_SCANLINE waits for (R145). -/
  engineWait : Nat
  /-- The model's own: how many draws of free values have been made. -/
  draws : Nat
  deriving DecidableEq, Repr

/-- The block has no fault: every access and every command has an outcome in the state (spec/60_exceptions.md R163, R166),
so this type has no constructor and a `.fault` cannot be written. -/
inductive Fault where
  deriving DecidableEq, Repr

/-- Reasons to refuse an instruction. -/
inductive Refusal where
  /-- Raised by an arm of `exec` whose instruction has no meaning yet; safe. No arm of this model raises it. -/
  | notModelled (mnemonic : String)
  deriving DecidableEq, Repr

/-- What a step answers. -/
abbrev Result := Host.Outcome State Fault Refusal

/-- The state the release of the reset input leaves (R42, R177, R179): the registers at their reset values, and PRAM, ZBUF
and LC unspecified, as the draw numbered `draw` has them. -/
def State.powerOn (p : Params) (draw : Nat) : State where
  params := p
  status := { busy := false, lwValid := false, illcmd := false, cmdovf := false, buserr := false }
  polyCount := 0
  lastWritten := { slot := 0, line := 0 }
  lastConsumed := 0
  pendLine := 0
  taint := false
  pram := []
  zbuf := tabulate 256 fun x => Config.freeDepth draw x
  lc := tabulate 48 fun slot => tabulate 256 fun x => Config.freePixel draw slot x
  pramDraw := draw
  port := []
  replies := []
  engineWait := 0
  draws := draw + 1

/-- The machine right after reset, with the default parameters of R7 and nothing yet presented at the port. -/
def State.reset : State := State.powerOn Params.default 0

end Sys2Proof.Machine
end

