-- ==== Sys2Proof/Machine/Flags.lean ====
section
/-! DEFINITION. The flags of STATUS (spec/10_state.md R24 to R27, R41): the word a read returns, the write-1-to-clear of the
sticky bits, and each event's effect on them. These are the block's only flags (R41). -/

namespace Sys2Proof.Machine

/-- One flag as a bit. -/
def bit (b : Bool) : BitVec 1 := BitVec.ofBool b

/-- STATUS as read: {21'b0, BUSERR, CMDOVF, ILLCMD, 6'b0, LW_VALID, BUSY} (R147). -/
def Status.read (f : Status) : Word :=
  (0 : BitVec 21) ++ bit f.buserr ++ bit f.cmdovf ++ bit f.illcmd ++ (0 : BitVec 6) ++ bit f.lwValid ++ bit f.busy

/-- A write of `v` clears each of bits 8, 9 and 10 where `v` has a 1, and nothing else (R24). -/
def Status.clear (v : Word) (f : Status) : Status :=
  { f with
    illcmd := f.illcmd && !v.getLsbD 8
    cmdovf := f.cmdovf && !v.getLsbD 9
    buserr := f.buserr && !v.getLsbD 10 }

/-- The three error events (R164). -/
inductive HostError where
  | illegalCommand
  | commandOverrun
  | busError
  deriving DecidableEq, Repr

/-- An error sets its own sticky bit and no other (R160 to R162, R167). -/
def Status.record (e : HostError) (f : Status) : Status :=
  match e with
  | .illegalCommand => { f with illcmd := true }
  | .commandOverrun => { f with cmdovf := true }
  | .busError => { f with buserr := true }

/-- Acceptance of a DRAW_SCANLINE sets BUSY (R25, R143). -/
def Status.accepted (f : Status) : Status := { f with busy := true }

/-- Completion of a DRAW_SCANLINE clears BUSY and sets LW_VALID (R25, R26, R146). -/
def Status.completed (f : Status) : Status := { f with busy := false, lwValid := true }

end Sys2Proof.Machine
end

