-- ==== Sys2Proof/Machine/Ops.lean ====
section
/-! DEFINITION. The named operations over memory and registers: PRAM bytes and words (spec/20_memory.md R48, R52, R54), the
window's address map and its legal accesses (R44 to R51), line-cache slots (R37, R150), raising an error and clearing it
(spec/60_exceptions.md R160 to R167), reset (spec/70_reset_and_hazards.md R177, R178). -/

namespace Sys2Proof.Machine

/-! ## Memory -/

/-- The byte written at offset `a` since reset, if any. -/
def Memory.byte? (a : Nat) : Memory → Option Byte
  | [] => none
  | (b, v) :: m => if a = b then some v else Memory.byte? a m

/-- Write one byte, keeping the offsets strictly rising. -/
def Memory.writeByte (a : Nat) (v : Byte) : Memory → Memory
  | [] => [(a, v)]
  | (b, w) :: m =>
    if a < b then (a, v) :: (b, w) :: m
    else if a = b then (a, v) :: m
    else (b, w) :: Memory.writeByte a v m

/-- Write a word at `a`, byte 0 lowest (R52). -/
def Memory.writeWord (a : Nat) (v : Word) (m : Memory) : Memory :=
  Memory.writeByte a (byteOfWord v 0) <| Memory.writeByte (a + 1) (byteOfWord v 1) <|
    Memory.writeByte (a + 2) (byteOfWord v 2) <| Memory.writeByte (a + 3) (byteOfWord v 3) m

/-- The PRAM byte at window offset `a`: the last one written, or a free value fixed since reset (R42, R149). -/
def State.pramByte (a : Nat) (s : State) : Byte :=
  (Memory.byte? a s.pram).getD (Config.freePramByte s.pramDraw a)

/-- The PRAM word at window offset `a` (R52, R149). -/
def State.pramWord (a : Nat) (s : State) : Word :=
  wordOfBytes (s.pramByte a) (s.pramByte (a + 1)) (s.pramByte (a + 2)) (s.pramByte (a + 3))

/-- Where PRAM begins in the window (R45). -/
def pramBase : Nat := 0x40000

/-- The offset of word `k` of entry `i` (R48). -/
def pramOffset (i k : Nat) : Nat := pramBase + 128 * i + 4 * k

/-! ## The line cache -/

/-- The slot line L is drawn into: L mod 48 (R37). -/
def slotOf (line : Byte) : Fin 48 := ⟨line.toNat % 48, Nat.mod_lt _ (by decide)⟩

/-- A read of this slot returns unspecified pixels: the slot of a DRAW_SCANLINE that is accepted and not complete (R150). -/
def State.beingDrawn (slot : Fin 48) (s : State) : Bool :=
  s.status.busy && slot == slotOf s.pendLine

/-- Pixel `x` of a slot as a host read sees it; `k` numbers the pixels of one read (R150). -/
def State.pixelRead (slot : Fin 48) (x : Fin 256) (k : Nat) (s : State) : Half :=
  if s.beingDrawn slot then Config.freeBusyRead s.draws k else s.lc[slot][x]

/-! ## The window -/

/-- Bytes in the window (R44). -/
def windowSize : Nat := 2 ^ 19

/-- The bus address of a window offset (R44). -/
def busAddr (p : Params) (off : Offset) : Nat := p.windowBase + off.toNat

/-- The window offset of a bus address, none when the address is not in this block's window (R44). -/
def offset? (p : Params) (addr : Nat) : Option Offset :=
  if p.windowBase ≤ addr ∧ addr < p.windowBase + windowSize then some (BitVec.ofNat 19 (addr - p.windowBase)) else none

/-- The six registers (R18). -/
inductive Register where
  | cfg
  | cmd
  | status
  | polyCount
  | lastWritten
  | lastConsumed
  deriving DecidableEq, Repr

/-- The mapped regions (R45). -/
inductive Region where
  | registers
  | lineCache
  | pram
  deriving DecidableEq, Repr

/-- The region that holds an offset; none when it is unmapped, which includes PRAM beyond MAX_POLYS entries (R45). -/
def regionOf (p : Params) (a : Nat) : Option Region :=
  if a < 0x18 then some .registers
  else if 0x10000 ≤ a ∧ a < 0x16000 then some .lineCache
  else if pramBase ≤ a ∧ a < pramBase + 128 * p.maxPolys then some .pram
  else none

/-- Whether a region takes a read of this width at this offset (R49). -/
def legalRead (r : Region) (a width : Nat) : Bool :=
  match r with
  | .registers => width == 4 && a % 4 == 0
  | .pram => width == 4 && a % 4 == 0
  | .lineCache => (width == 2 && a % 2 == 0) || (width == 4 && a % 4 == 0)

/-- Whether a region takes a write of this width at this offset; the line cache takes none (R47, R49). -/
def legalWrite (r : Region) (a width : Nat) : Bool :=
  match r with
  | .registers => width == 4 && a % 4 == 0
  | .pram => width == 4 && a % 4 == 0
  | .lineCache => false

/-- The region a read is performed in; none when it is refused (R49 to R51). -/
def readTarget (p : Params) (off : Offset) (width : Nat) : Option Region :=
  (regionOf p off.toNat).filter fun r => legalRead r off.toNat width

/-- The region a write is performed in; none when it is refused (R49 to R51). -/
def writeTarget (p : Params) (off : Offset) (width : Nat) : Option Region :=
  (regionOf p off.toNat).filter fun r => legalWrite r off.toNat width

/-- The register at an aligned offset of the register region (R45). -/
def registerAt (a : Nat) : Register :=
  match a / 4 with
  | 0 => .cfg
  | 1 => .cmd
  | 2 => .status
  | 3 => .polyCount
  | 4 => .lastWritten
  | _ => .lastConsumed

/-- A register's offset (R45). -/
def registerOffset : Register → Offset
  | .cfg => 0x00
  | .cmd => 0x04
  | .status => 0x08
  | .polyCount => 0x0C
  | .lastWritten => 0x10
  | .lastConsumed => 0x14

/-- The slot an offset of the LC window lies in (R47). -/
def lcSlotAt (a : Nat) : Fin 48 := ⟨(a - 0x10000) / 512 % 48, Nat.mod_lt _ (by decide)⟩

/-- The pixel an offset of the LC window lies in (R47). -/
def lcPixelAt (a : Nat) : Fin 256 := ⟨(a - 0x10000) / 2 % 256, Nat.mod_lt _ (by decide)⟩

/-- The offset of pixel `x` of a slot (R47). -/
def lcOffset (slot : Fin 48) (x : Fin 256) : Offset := BitVec.ofNat 19 (0x10000 + 512 * slot.val + 2 * x.val)

/-! ## Errors and reset -/

/-- Raising an error: its sticky bit is set and nothing else changes. No control is transferred, no state is saved and no
address or word is recorded (R164, R166). -/
def State.raise (e : HostError) (s : State) : State := { s with status := s.status.record e }

/-- The return from errors: the host clears the sticky bits it names (R24, R167). -/
def State.clearErrors (v : Word) (s : State) : State := { s with status := s.status.clear v }

/-- A write to PRAM or POLY_COUNT performed while BUSY = 1 sets TAINT (R151). -/
def State.taintIfBusy (s : State) : State := { s with taint := s.taint || s.status.busy }

/-- A PRAM word write: all 32 bits are stored, and TAINT is set if BUSY = 1 (R149, R151). -/
def State.writePram (a : Nat) (v : Word) (s : State) : State :=
  { s with pram := Memory.writeWord a v s.pram }.taintIfBusy

/-- The value a read returns to the host. -/
def State.reply (v : Word) (s : State) : State := { s with replies := v :: s.replies }

/-- The reset input was asserted and released: every state element holds its reset value, an accepted DRAW_SCANLINE is
abandoned, and no memory content survives: PRAM, ZBUF and LC are a fresh draw (R177, R178). The parameters, the events still
to come and what the host has already read are no state of the block. -/
def State.resetInput (s : State) : State :=
  { State.powerOn s.params s.draws with port := s.port, replies := s.replies }

end Sys2Proof.Machine
end

