-- ==== Sys2Proof/Machine/Commands.lean ====
section
/-! DEFINITION. The meanings of the two commands as their CMD write performs them (spec/43_command_interface.md R141 to
R143). A command written while BUSY = 1 is CommandOverrun and has no effect of its own (R141, R161). What an accepted
DRAW_SCANLINE then draws is the engine step's, in Machine/Engine.lean (R144). -/

namespace Sys2Proof.Machine

/-- Acceptance of a DRAW_SCANLINE (R143); how many port events pass before its engine step is a free value (R145). -/
def State.accept (line : Byte) (s : State) : State :=
  { s with
    status := s.status.accepted
    pendLine := line
    taint := false
    engineWait := Config.engineDelay s.draws
    draws := s.draws + 1 }

/-- A command has its own effect while BUSY = 0, and is turned away while BUSY = 1 (R141, R165). -/
def State.unlessBusy (effect : State → State) (s : State) : State :=
  if s.status.busy then s.raise .commandOverrun else effect s

/-- NOP (R142). -/
def execNop (s : State) : Result := .next (s.unlessBusy id)

/-- DRAW_SCANLINE LINE (R143). -/
def execDrawScanline (line : Byte) (s : State) : Result := .next (s.unlessBusy (State.accept line))

end Sys2Proof.Machine
end

