-- ==== Sys2Proof/Machine/Arith.lean ====
section
/-! DEFINITION. Arithmetic on mathematical integers and exact rationals (spec/00_scope.md R10), and the binary32 primitives
(R11). -/

namespace Sys2Proof.Machine

/-- trunc0: the integer nearest to `q` in the direction of zero (R10). -/
def trunc0 (q : ℚ) : Int := Int.tdiv q.num q.den

/-- clamp (R10). -/
def clamp (q lo hi : ℚ) : ℚ := if q < lo then lo else if hi < q then hi else q

/-- div0: truncating integer division (R10). -/
def div0 (a b : Int) : Int := Int.tdiv a b

/-- wrap_s32, as the word whose `toInt` it is (R10). -/
def wrapS32 (v : Int) : Word := BitVec.ofInt 32 v

/-- 2 to an integer power. -/
def pow2 : Int → ℚ
  | .ofNat n => ((2 ^ n : Nat) : ℚ)
  | .negSucc n => mkRat 1 (2 ^ (n + 1))

/-- The magnitude of a rational. -/
def magnitude (q : ℚ) : ℚ := if q < 0 then -q else q

/-- The binary exponent of a non-zero rational: the e with 2^e ≤ |q| < 2^(e+1). -/
def binaryExponent (q : ℚ) : Int :=
  let k : Int := (Nat.log2 q.num.natAbs : Int) - Nat.log2 q.den
  if pow2 k ≤ magnitude q then k else k - 1

/-- The nearest integer, ties to even. -/
def roundHalfEven (q : ℚ) : Int :=
  let f := q.floor
  let rest := q - f
  if rest < 1 / 2 then f else if 1 / 2 < rest then f + 1 else if f % 2 = 0 then f else f + 1

/-- fl: the nearest IEEE 754 binary32 value, ties to even: 24 significant bits, the last no lower than 2^-149 (R11). No rule
gives it a magnitude that overflows. -/
def fl (q : ℚ) : ℚ :=
  if q = 0 then 0
  else
    let unit := pow2 (max (binaryExponent q - 23) (-149))
    (roundHalfEven (q / unit) : ℚ) * unit

/-- fdiv (R11). -/
def fdiv (a b : ℚ) : ℚ := fl (a / b)

/-- fmul (R11). -/
def fmul (a b : ℚ) : ℚ := fl (a * b)

/-- fadd (R11). -/
def fadd (a b : ℚ) : ℚ := fl (a + b)

end Sys2Proof.Machine
end

