-- ==== Sys2Proof/Machine/Operands.lean ====
section
/-! DEFINITION. The operands of the datapath: vertices and polygons as assembled from PRAM words (spec/10_state.md R32 to
R35, spec/30_encoding.md R80, R81), and the channels of a color (R38, spec/41_interpolator.md R101). -/

namespace Sys2Proof.Machine

/-- A vertex (spec/00_scope.md R13): x, y, z, w are int32, read by `BitVec.toInt` (R80); color is a halfword. -/
structure Vertex where
  x : Word
  y : Word
  z : Word
  w : Word
  color : Half
  deriving DecidableEq, Repr

/-- A polygon in slot order: v1..v3 of a triangle or v1..v4 of a quad (R35). -/
inductive Polygon where
  | triangle (v : Vector Vertex 3)
  | quad (v : Vector Vertex 4)
  deriving DecidableEq, Repr

/-- Word `k` of PRAM entry `i` (R48). -/
def State.entryWord (i k : Nat) (s : State) : Word := s.pramWord (pramOffset i k)

/-- Vertex slot `j` of entry `i`: words 1+5j..5+5j in the order X, Y, Z, W, COLOR, of which the color is bits 15:0 (R33). -/
def State.vertexSlot (i j : Nat) (s : State) : Vertex where
  x := s.entryWord i (1 + 5 * j)
  y := s.entryWord i (2 + 5 * j)
  z := s.entryWord i (3 + 5 * j)
  w := s.entryWord i (4 + 5 * j)
  color := (s.entryWord i (5 + 5 * j)).extractLsb' 0 16

/-- KIND, bit 0 of the header: 1 is a quad (R32). -/
def State.isQuad (i : Nat) (s : State) : Bool := (s.entryWord i 0).getLsbD 0

/-- The polygon of submission index `i` (R31, R35, R109); a triangle's slot 3 is not read. -/
def State.polygon (i : Nat) (s : State) : Polygon :=
  if s.isQuad i then .quad #v[s.vertexSlot i 0, s.vertexSlot i 1, s.vertexSlot i 2, s.vertexSlot i 3]
  else .triangle #v[s.vertexSlot i 0, s.vertexSlot i 1, s.vertexSlot i 2]

/-- The live polygons 0..COUNT-1 in submission order (R108). -/
def State.polygons (s : State) : List Polygon := (List.range s.polyCount.toNat).map fun i => s.polygon i

/-- R = color[4:0] (R38, R80). -/
def red (c : Half) : BitVec 5 := c.extractLsb' 0 5

/-- G = color[9:5] (R38, R80). -/
def green (c : Half) : BitVec 5 := c.extractLsb' 5 5

/-- B = color[14:10] (R38, R80). -/
def blue (c : Half) : BitVec 5 := c.extractLsb' 10 5

/-- A drawn pixel: bit 15 set above the three channels (R38, R101). -/
def packColor (b g r : BitVec 5) : Half := (1 : BitVec 1) ++ b ++ g ++ r

end Sys2Proof.Machine
end

