-- ==== Sys2Proof/Machine/Interpolator.lean ====
section
/-! DEFINITION. The interpolator (spec/41_interpolator.md R93 to R106): stateless, in both settings of INTERP_ARITH. -/

namespace Sys2Proof.Machine

/-- interpolate under INTERP_ARITH = EXACT (R93 to R96): the whole sum is truncated toward zero, once. -/
def interpolateExact (min max start current stop : Int) : Int :=
  if start = stop then min
  else
    let g := clamp (((current - start : Int) : ℚ) / ((stop - start : Int) : ℚ)) 0 1
    trunc0 ((min : ℚ) + g * ((max - min : Int) : ℚ))

/-- The sum r of interpolate under INTERP_ARITH = BINARY32, start ≠ end, before its conversion to an integer (R97).
DESIGN CHOICE where min needs more than 24 bits: R97's sum is then fl(min) at or before start, where R100 says the result is
min; R97 is followed (log entry 25). -/
def binary32Sum (min max start current stop : Int) : ℚ :=
  let g := clamp (fdiv (fl ((current - start : Int) : ℚ)) (fl ((stop - start : Int) : ℚ))) 0 1
  fadd (fl (min : ℚ)) (fmul (fl ((max - min : Int) : ℚ)) g)

/-- interpolate under INTERP_ARITH = BINARY32 (R97); a sum outside int32 gives a free int32 (R98). -/
def interpolateBinary32 (min max start current stop : Int) : Int :=
  if start = stop then min
  else
    let r := binary32Sum min max start current stop
    if r < -2 ^ 31 ∨ 2 ^ 31 - 1 < r then (Config.freeInterp min max start current stop).toInt else trunc0 r

/-- interpolate (R93): one arithmetic for the whole block (R105). -/
def interpolate (arith : InterpArith) (min max start current stop : Int) : Int :=
  match arith with
  | .exact => interpolateExact min max start current stop
  | .binary32 => interpolateBinary32 min max start current stop

/-- One 5-bit channel of interpolateColor (R102). -/
def interpolateChannel (arith : InterpArith) (min max : BitVec 5) (start current stop : Int) : BitVec 5 :=
  BitVec.ofInt 5 (interpolate arith min.toNat max.toNat start current stop)

/-- interpolateColor (R101): the channels apart, and bit 15 forced to 1 (R103). -/
def interpolateColor (arith : InterpArith) (min max : Half) (start current stop : Int) : Half :=
  packColor
    (interpolateChannel arith (blue min) (blue max) start current stop)
    (interpolateChannel arith (green min) (green max) start current stop)
    (interpolateChannel arith (red min) (red max) start current stop)

end Sys2Proof.Machine
end

