-- ==== Sys2Proof/Machine/Normalizer.lean ====
section
/-! DEFINITION. The vertex normalizer (spec/40_vertex_normalizer.md R85 to R92): a pure function of one vertex. -/

namespace Sys2Proof.Machine

/-- x' with exact intermediates, reduced into int32 (R87, R91): the quotient is truncated before the offset is added (R90). -/
def normX (v : Vertex) : Word := wrapS32 (div0 (v.x.toInt * normXScale) v.w.toInt + normXOffset)

/-- y' likewise, Y flipped (R88, R90, R91). -/
def normY (v : Vertex) : Word := wrapS32 (div0 (-v.y.toInt * normYScale) v.w.toInt + normYOffset)

/-- NORM_OVERFLOW = ANY leaves the coordinate open (R91). -/
def beyondAnyBound (c : Word) : Bool := normAnyBound ≤ c.toInt.natAbs

/-- x' (R87, R91). -/
def normalizedX (mode : NormOverflow) (v : Vertex) : Word :=
  match mode with
  | .wrap => normX v
  | .any => if beyondAnyBound v.x then Config.freeNormX v.x v.y v.z v.w v.color else normX v

/-- y' (R88, R91). -/
def normalizedY (mode : NormOverflow) (v : Vertex) : Word :=
  match mode with
  | .wrap => normY v
  | .any => if beyondAnyBound v.y then Config.freeNormY v.x v.y v.z v.w v.color else normY v

/-- normalize (R85), named apart from Mathlib's own `normalize`: a vertex with w = 0 passes through unchanged (R86); z, w and color always do (R89). -/
def normalizeVertex (mode : NormOverflow) (v : Vertex) : Vertex :=
  if v.w = 0 then v else { v with x := normalizedX mode v, y := normalizedY mode v }

end Sys2Proof.Machine
end

