-- ==== Sys2Proof/Machine/Rasterizer.lean ====
section
/-! DEFINITION. The scanline rasterizer (spec/42_scanline_rasterizer.md R107 to R139): the sorting networks, the edge
classifiers, the span fill and drawScanline. -/

namespace Sys2Proof.Machine

/-! ## Sorting -/

/-- CAS(p, q): the whole records change places if and only if the y at p is strictly greater (R112). -/
def cas {n : Nat} (v : Vector Vertex n) (p q : Fin n) : Vector Vertex n :=
  if v[q].y.toInt < v[p].y.toInt then (v.set p v[q]).set q v[p] else v

/-- sort3: CAS(1,2), CAS(1,3), CAS(2,3), in this order (R110). -/
def sort3 (v : Vector Vertex 3) : Vector Vertex 3 := cas (cas (cas v 0 1) 0 2) 1 2

/-- sort4: the six pairs of QUAD_SORT_NET, in order (R111). -/
def sort4 (net : Vector (Fin 4 × Fin 4) 6) (v : Vector Vertex 4) : Vector Vertex 4 :=
  net.toList.foldl (fun v pq => cas v pq.1 pq.2) v

/-! ## Edge selection -/

/-- The signed area that says on which side of the line from `top` to `bottom` the vertex `v` lies, exact: cross2 of a
triangle (R114), cross2 and cross3 of a quad (R119). -/
def cross (top v bottom : Vertex) : Int :=
  (v.x.toInt - top.x.toInt) * (bottom.y.toInt - top.y.toInt) - (v.y.toInt - top.y.toInt) * (bottom.x.toInt - top.x.toInt)

/-- `v` lies right of the line: the cross product is positive; 0 counts as left (R114, R117, R119). -/
def isRight (top v bottom : Vertex) : Bool := 0 < cross top v bottom

/-- The edge pair handed to rasterize: left edge a→b, right edge c→d (R123). -/
structure EdgePair where
  a : Vertex
  b : Vertex
  c : Vertex
  d : Vertex
  deriving DecidableEq, Repr

/-- triEdges (R115, R116), on the sorted vertices. -/
def triEdges (v : Vector Vertex 3) (line : Int) : EdgePair :=
  match isRight v[0] v[1] v[2], decide (line < v[1].y.toInt) with
  | true, true => ⟨v[0], v[2], v[0], v[1]⟩
  | true, false => ⟨v[0], v[2], v[1], v[2]⟩
  | false, true => ⟨v[0], v[1], v[0], v[2]⟩
  | false, false => ⟨v[1], v[2], v[0], v[2]⟩

/-- The quad's Y sub-range, the tests in this order (R120). -/
def quadRange (v : Vector Vertex 4) (line : Int) : Fin 3 :=
  if line < v[1].y.toInt then 0 else if line < v[2].y.toInt then 1 else 2

/-- The three rows of QUAD_EDGE_TABLE for a pair of signs, in the table's order of pairs (R122). -/
def quadSignRow (cross2Right cross3Right : Bool) : Fin 4 :=
  match cross2Right, cross3Right with
  | true, true => 0
  | false, false => 1
  | true, false => 2
  | false, true => 3

/-- The row of QUAD_EDGE_TABLE for the signs and the range (R122). -/
def quadRow (signs : Fin 4) (range : Fin 3) : Fin 12 := ⟨3 * signs.val + range.val, by omega⟩

/-- quadEdges (R118 to R122), on the sorted vertices. -/
def quadEdges (table : Vector QuadEdges 12) (v : Vector Vertex 4) (line : Int) : EdgePair :=
  let e := table[quadRow (quadSignRow (isRight v[0] v[1] v[3]) (isRight v[0] v[2] v[3])) (quadRange v line)]
  ⟨v[e.a], v[e.b], v[e.c], v[e.d]⟩

/-! ## Span fill -/

/-- What one drawScanline works on: the slot's pixels and ZBUF (R36, R37). -/
structure LineBuf where
  pixels : Vector Half 256
  depths : Vector Word 256
  deriving DecidableEq, Repr

/-- The slot cleared and every depth at the sentinel 2^31 - 1 (R107). -/
def LineBuf.cleared : LineBuf where
  pixels := Vector.replicate 256 clearPixel
  depths := Vector.replicate 256 zSentinel

/-- Bounds of a span after the clamps of R125. -/
structure Span where
  lx0 : Int
  lx1 : Int
  deriving DecidableEq, Repr

/-- The x of edge p→q on the line (R124). -/
def edgeX (arith : InterpArith) (p q : Vertex) (line : Int) : Int :=
  interpolate arith p.x.toInt q.x.toInt p.y.toInt line q.y.toInt

/-- The z of edge p→q on the line: z1 and z2 (R127). -/
def edgeZ (arith : InterpArith) (p q : Vertex) (line : Int) : Int :=
  interpolate arith p.z.toInt q.z.toInt p.y.toInt line q.y.toInt

/-- The color of edge p→q on the line: color1 and color2 (R129). -/
def edgeColor (arith : InterpArith) (p q : Vertex) (line : Int) : Half :=
  interpolateColor arith p.color q.color p.y.toInt line q.y.toInt

/-- The clamped span, none when it is off the screen and rasterize aborts (R124, R125). -/
def spanOf (arith : InterpArith) (line : Int) (e : EdgePair) : Option Span :=
  let lx0 := edgeX arith e.a e.b line
  let lx1 := edgeX arith e.c e.d line
  let lx0 := if lx0 < 0 then 0 else lx0
  if lx0 > 255 then none
  else
    let lx1 := if lx1 > 255 then 255 else lx1
    if lx1 < 0 then none else some ⟨lx0, lx1⟩

/-- The pixels of a span, lx0 to lx1 both included; none when lx0 > lx1 (R126). -/
def Span.pixels (sp : Span) : List (Fin 256) :=
  (List.finRange 256).filter fun x => decide (sp.lx0 ≤ (x.val : Int)) && decide ((x.val : Int) ≤ sp.lx1)

/-- The depth of pixel x: along each edge in Y, then across the span in X, over the clamped bounds (R127). -/
def pixelDepth (arith : InterpArith) (line : Int) (e : EdgePair) (sp : Span) (x : Fin 256) : Int :=
  interpolate arith (edgeZ arith e.a e.b line) (edgeZ arith e.c e.d line) sp.lx0 x.val sp.lx1

/-- The color of pixel x (R129). -/
def pixelColor (arith : InterpArith) (line : Int) (e : EdgePair) (sp : Span) (x : Fin 256) : Half :=
  interpolateColor arith (edgeColor arith e.a e.b line) (edgeColor arith e.c e.d line) sp.lx0 x.val sp.lx1

/-- One iteration of the pixel loop: the depth test, and the writes of a pixel that passes (R128, R130). -/
def fillPixel (arith : InterpArith) (line : Int) (e : EdgePair) (sp : Span) (buf : LineBuf) (x : Fin 256) : LineBuf :=
  let z := pixelDepth arith line e sp x
  if z ≤ buf.depths[x].toInt then
    { pixels := buf.pixels.set x (pixelColor arith line e sp x), depths := buf.depths.set x (BitVec.ofInt 32 z) }
  else buf

/-- rasterize (R123). -/
def rasterize (arith : InterpArith) (line : Int) (e : EdgePair) (buf : LineBuf) : LineBuf :=
  match spanOf arith line e with
  | none => buf
  | some sp => sp.pixels.foldl (fillPixel arith line e sp) buf

/-! ## drawScanline -/

/-- The line is outside the Y range from `first` to `last`, both ends being inside (R113). -/
def outsideY (first last : Vertex) (line : Int) : Bool := line < first.y.toInt || last.y.toInt < line

/-- One turn of the polygon loop: normalize, sort, reject, classify, rasterize (R109 to R123). -/
def drawPolygon (p : Params) (line : Int) (buf : LineBuf) (poly : Polygon) : LineBuf :=
  match poly with
  | .triangle slots =>
    let v := sort3 (slots.map (normalizeVertex p.normOverflow))
    if outsideY v[0] v[2] line then buf else rasterize p.interpArith line (triEdges v line) buf
  | .quad slots =>
    let v := sort4 p.quadSortNet (slots.map (normalizeVertex p.normOverflow))
    if outsideY v[0] v[3] line then buf else rasterize p.interpArith line (quadEdges p.quadEdgeTable v line) buf

/-- drawScanline (R137): clear, reset depth, then every live polygon in submission order (R107, R108). -/
def drawScanline (p : Params) (line : Byte) (polys : List Polygon) : LineBuf :=
  polys.foldl (drawPolygon p line.toNat) LineBuf.cleared

end Sys2Proof.Machine
end

