-- ==== Sys2Proof/Machine/Engine.lean ====
section
/-! DEFINITION. The engine step (spec/43_command_interface.md R140, R144 to R146): the accepted DRAW_SCANLINE performed to
completion in one atomic transition. -/

namespace Sys2Proof.Machine

/-- The engine step is enabled only while BUSY = 1. It happens once the wait drawn at acceptance has run out, or when no event
is presented: after finitely many host steps (R140, R145). -/
def State.engineDue (s : State) : Bool := s.status.busy && (s.engineWait == 0 || s.port.isEmpty)

/-- What a tainted draw leaves: any pixel and any depth (R144, R151). -/
def LineBuf.free (draw : Nat) (slot : Fin 48) : LineBuf where
  pixels := tabulate 256 fun x => Config.freePixel draw slot x
  depths := tabulate 256 fun x => Config.freeDepth draw x

/-- The contents the engine step gives the pending line's slot, and ZBUF (R144). -/
def State.drawnLine (s : State) : LineBuf :=
  if s.taint then LineBuf.free s.draws (slotOf s.pendLine) else drawScanline s.params s.pendLine s.polygons

/-- LC_LAST_WRITTEN at the completion of a line (R146). -/
def lastWrittenOf (line : Byte) : LastWritten where
  slot := BitVec.ofNat 6 (line.toNat % 48)
  line := line

/-- Completion (R146): PEND_LINE and TAINT keep their values. -/
def State.complete (s : State) : State :=
  { s with lastWritten := lastWrittenOf s.pendLine, status := s.status.completed }

/-- Put a drawn line into its slot and ZBUF (R144). -/
def State.storeLine (buf : LineBuf) (s : State) : State :=
  { s with lc := s.lc.set (slotOf s.pendLine) buf.pixels, zbuf := buf.depths }

/-- The engine step (R144, R146). A tainted draw uses up one draw of free values. -/
def State.engineStep (s : State) : State :=
  ({ s.storeLine s.drawnLine with draws := if s.taint then s.draws + 1 else s.draws }).complete

end Sys2Proof.Machine
end

