-- ==== Sys2Proof/Machine/HostPort.lean ====
section
/-! DEFINITION. The host step (spec/43_command_interface.md R140, R141, R147 to R152): the effect of every access and of the
reset input. -/

namespace Sys2Proof.Machine

/-! ## Reads -/

/-- CFG as read: LC_SLOTS, SCREEN_H and MAX_POLYS (R22). -/
def cfgWord (p : Params) : Word := BitVec.ofNat 16 p.maxPolys ++ BitVec.ofNat 8 screenHeight ++ BitVec.ofNat 8 lcSlots

/-- LC_LAST_WRITTEN as read: {18'b0, SLOT, LINE} (R29, R146). -/
def LastWritten.read (r : LastWritten) : Word := (0 : BitVec 18) ++ r.slot ++ r.line

/-- Register reads (R147); CMD reads 0 (R23). -/
def State.registerRead (r : Register) (s : State) : Word :=
  match r with
  | .cfg => cfgWord s.params
  | .cmd => 0
  | .status => s.status.read
  | .polyCount => s.polyCount.zeroExtend 32
  | .lastWritten => s.lastWritten.read
  | .lastConsumed => s.lastConsumed.zeroExtend 32

/-- What an LC read returns: one pixel, or two with the lower pixel in the low half (R53, R150). -/
def State.lineCacheRead (a width : Nat) (s : State) : Word :=
  let slot := lcSlotAt a
  let x := lcPixelAt a
  if width = 2 then (s.pixelRead slot x 0).zeroExtend 32
  else s.pixelRead slot (x + 1) 1 ++ s.pixelRead slot x 0

/-- A read of the slot being drawn uses up one draw of free values, so that two reads may differ (R150, I7). -/
def State.noteBusyRead (slot : Fin 48) (s : State) : State :=
  if s.beingDrawn slot then { s with draws := s.draws + 1 } else s

/-- A host read (R147, R149, R150); a refused read raises BusError and returns 0 (R50, R51). -/
def State.hostRead (off : Offset) (width : Nat) (s : State) : State :=
  match readTarget s.params off width with
  | some .registers => s.reply (s.registerRead (registerAt off.toNat))
  | some .pram => s.reply (s.pramWord off.toNat)
  | some .lineCache => (s.noteBusyRead (lcSlotAt off.toNat)).reply (s.lineCacheRead off.toNat width)
  | none => (s.raise .busError).reply 0

/-! ## Writes -/

/-- COUNT ← min(v, MAX_POLYS) (R28, R148), and TAINT if BUSY = 1 (R151). -/
def State.writePolyCount (v : Word) (s : State) : State :=
  { s with polyCount := BitVec.ofNat 12 (min v.toNat s.params.maxPolys) }.taintIfBusy

/-- LINE ← v[7:0] (R30, R148). -/
def State.writeLastConsumed (v : Word) (s : State) : State := { s with lastConsumed := v.extractLsb' 0 8 }

/-- A word written to CMD (R141): BUSY is tested before the word is decoded, and an illegal word raises IllegalCommand. -/
def writeCommand (w : Word) (s : State) : Result :=
  if s.status.busy then .next (s.raise .commandOverrun)
  else
    match decode w with
    | .command i => exec i s
    | .illegal _ => .next (s.raise .illegalCommand)

/-- Register writes (R148); CFG and LC_LAST_WRITTEN ignore them. -/
def registerWrite (r : Register) (v : Word) (s : State) : Result :=
  match r with
  | .cfg => .next s
  | .cmd => writeCommand v s
  | .status => .next (s.clearErrors v)
  | .polyCount => .next (s.writePolyCount v)
  | .lastWritten => .next s
  | .lastConsumed => .next (s.writeLastConsumed v)

/-- A host write (R148, R149); a refused write changes nothing but STATUS.BUSERR (R50, R51). -/
def hostWrite (off : Offset) (width : Nat) (v : Word) (s : State) : Result :=
  match writeTarget s.params off width with
  | some .registers => registerWrite (registerAt off.toNat) v s
  | some .pram => .next (s.writePram off.toNat v)
  | some .lineCache => .next (s.raise .busError)
  | none => .next (s.raise .busError)

/-! ## One event -/

/-- An access outside this block's window is not this block's and changes nothing (R44; log entry 4). -/
def portEvent (e : PortEvent) (s : State) : Result :=
  match e with
  | .reset => .next s.resetInput
  | .read addr width =>
    match offset? s.params addr with
    | some off => .next (s.hostRead off width)
    | none => .next s
  | .write addr width v =>
    match offset? s.params addr with
    | some off => hostWrite off width v s
    | none => .next s

/-- The event at the head of the port is taken, and the pending draw's wait goes down by one. -/
def State.takeEvent (rest : List PortEvent) (s : State) : State :=
  { s with port := rest, engineWait := s.engineWait - 1 }

/-- The bus write that carries a command word: 4 bytes at CMD (R70, R79). -/
def commandWrite (p : Params) (w : Word) : PortEvent := .write (busAddr p (registerOffset .cmd)) 4 w

end Sys2Proof.Machine
end

