-- ==== Sys2Proof/Machine/Step.lean ====
section
/-! DEFINITION. One step of the block (spec/43_command_interface.md R140): the engine step when it is due, else the host step
of the event at the head of the port, else nothing (spec/60_exceptions.md R175). -/

namespace Sys2Proof.Machine

/-- One step. -/
def step (s : State) : Host.Outcome State Fault Refusal :=
  if s.engineDue then .next s.engineStep
  else
    match s.port with
    | [] => .next s
    | e :: rest => portEvent e (s.takeEvent rest)

/-- `s` with the command word of `nbits` bits `w` presented as the port's next event, ahead of a pending draw's engine step. -/
def State.withFetchWord (s : State) (nbits w : Nat) : State :=
  { s with
    port := commandWrite s.params (BitVec.ofNat 32 (w % 2 ^ nbits)) :: s.port
    engineWait := if s.status.busy then max s.engineWait 1 else s.engineWait }

end Sys2Proof.Machine
end

