-- ==== Sys2Proof/Machine/HostProgram.lean ====
section
/-! DEFINITION. The host-program syntax of spec/30_encoding.md R82 to R84: what a pseudo-statement expands to, the access a
statement presents at the port, and the assembler of command mnemonics. -/

namespace Sys2Proof.Machine

/-- A number as an unsigned word, negative ones in two's complement. -/
def wordNumber (v : Int) : Nat := (BitVec.ofInt 32 v).toNat

/-- The expansions of R83. -/
def expand : PseudoStmt → List HostStmt
  | .nop => [.wr32 0x00004 0x00000000]
  | .draw line => [.wr32 0x00004 (0x01000000 ||| line)]
  | .waitIdle label name => [.label label, .rd32 0x00008 name, .bnz name 0x1 label]
  | .setCount n => [.wr32 0x0000C n]
  | .clrErr => [.wr32 0x00008 0x00000700]
  | .poly i kind => [.wr32 (0x40000 + 128 * i) kind]
  | .vtx i j x y z w color =>
    let at0 := 0x40000 + 128 * i + 4 + 20 * j
    [.wr32 at0 (wordNumber x), .wr32 (at0 + 4) (wordNumber y), .wr32 (at0 + 8) (wordNumber z),
      .wr32 (at0 + 12) (wordNumber w), .wr32 (at0 + 16) color]
  | .pix slot x name => [.rd16 (0x10000 + 512 * slot + 2 * x) name]

/-- The access a statement presents (R82); a label and a branch are the host's own. -/
def accessOf (p : Params) : HostStmt → Option PortEvent
  | .wr32 off value => some (.write (p.windowBase + off) 4 (BitVec.ofNat 32 value))
  | .rd32 off _ => some (.read (p.windowBase + off) 4)
  | .rd16 off _ => some (.read (p.windowBase + off) 2)
  | .label _ => none
  | .bnz _ _ _ => none

/-- The assembler of `DRAW_SCANLINE LINE`: it refuses a LINE outside 0..255 (R84). -/
def assembleDraw (line : Nat) : Option Word :=
  if line ≤ 255 then some (encode (.drawScanline (BitVec.ofNat 8 line))) else none

end Sys2Proof.Machine
end

