-- ==== Sys2Proof/Safety.lean ====
section
/-! DEFINITION. The terms claims are stated in: the invariant of every step, the duties a host owes
(spec/70_reset_and_hazards.md R182 to R184), runs, and what two states share. -/

namespace Sys2Proof.Machine

/-- PRAM lists only offsets of the PRAM window (spec/20_memory.md R45). -/
abbrev State.PramInWindow (s : State) : Prop :=
  ∀ c ∈ s.pram, pramBase ≤ c.1 ∧ c.1 < pramBase + 128 * s.params.maxPolys

/-- COUNT is at most MAX_POLYS (spec/10_state.md R28). -/
abbrev State.CountInRange (s : State) : Prop := s.polyCount.toNat ≤ s.params.maxPolys

/-- LC_LAST_WRITTEN's SLOT is its LINE mod 48 (spec/10_state.md R29). -/
abbrev State.LastWrittenAgrees (s : State) : Prop := s.lastWritten.slot.toNat = s.lastWritten.line.toNat % 48

/-- What every step keeps. -/
abbrev State.Inv (s : State) : Prop :=
  s.params.WellFormed ∧ Memory.wf s.pram ∧ s.PramInWindow ∧ s.CountInRange ∧ s.LastWrittenAgrees

/-- `k` steps from `s` end in `t`. -/
def Runs : Nat → State → State → Prop
  | 0, s, t => s = t
  | k + 1, s, t => ∃ u, step s = .next u ∧ Runs k u t

/-- The event writes CMD, PRAM or POLY_COUNT: the accesses R182 and R184 forbid while BUSY = 1. -/
def disturbs (p : Params) (e : PortEvent) : Bool :=
  match e with
  | .write addr width _ =>
    match offset? p addr with
    | some off =>
      match writeTarget p off width with
      | some .pram => true
      | some .registers => registerAt off.toNat == .cmd || registerAt off.toNat == .polyCount
      | _ => false
    | none => false
  | _ => false

/-- The event reads a pixel of this slot (R183). -/
def readsSlot (p : Params) (slot : Fin 48) (e : PortEvent) : Bool :=
  match e with
  | .read addr width =>
    match offset? p addr with
    | some off => readTarget p off width == some .lineCache && lcSlotAt off.toNat == slot
    | none => false
  | _ => false

/-- The host keeps R182, R183 and R184 in the event it presents next. -/
def State.Disciplined (s : State) : Bool :=
  match s.port with
  | [] => true
  | e :: _ => !(s.status.busy && (disturbs s.params e || readsSlot s.params (slotOf s.pendLine) e))

/-- The next step is the host step of event `e`, with `rest` behind it (spec/43_command_interface.md R140). -/
abbrev State.Presents (s : State) (e : PortEvent) (rest : List PortEvent) : Prop :=
  s.engineDue = false ∧ s.port = e :: rest

/-- A read of `width` bytes at window offset `a`: MemRead(a, width) (spec/00_scope.md R12). -/
abbrev State.readAt (a width : Nat) (s : State) : PortEvent := .read (s.params.windowBase + a) width

/-- A write at window offset `a`: MemWrite(a, width, v) (spec/00_scope.md R12). -/
abbrev State.writeAt (a width : Nat) (v : Word) (s : State) : PortEvent := .write (s.params.windowBase + a) width v

/-- The legal word accesses: a register or a PRAM word, aligned (spec/20_memory.md R45, R49). -/
abbrev LegalWordAccess (p : Params) (a width : Nat) : Prop :=
  width = 4 ∧ a % 4 = 0 ∧ (a < 0x18 ∨ (0x40000 ≤ a ∧ a < 0x40000 + 128 * p.maxPolys))

/-- The legal reads (spec/20_memory.md R45, R49). -/
abbrev LegalRead (p : Params) (a width : Nat) : Prop :=
  LegalWordAccess p a width ∨ ((width = 2 ∨ width = 4) ∧ a % width = 0 ∧ 0x10000 ≤ a ∧ a < 0x16000)

/-- Entry `i` holds the same used words in both states: bit 0 of the header, and of each vertex slot the KIND uses the four
coordinate words and the low half of the COLOR word (spec/10_state.md R32, R33, R35). -/
abbrev SameUsedWords (i : Nat) (s t : State) : Prop :=
  (s.pramWord (0x40000 + 128 * i)).getLsbD 0 = (t.pramWord (0x40000 + 128 * i)).getLsbD 0 ∧
  ∀ j < (if (s.pramWord (0x40000 + 128 * i)).getLsbD 0 then 4 else 3),
    (∀ k < 4, s.pramWord (0x40000 + 128 * i + 4 + 20 * j + 4 * k) = t.pramWord (0x40000 + 128 * i + 4 + 20 * j + 4 * k)) ∧
    (s.pramWord (0x40000 + 128 * i + 20 + 20 * j)).toNat % 65536 = (t.pramWord (0x40000 + 128 * i + 20 + 20 * j)).toNat % 65536

/-- The vertices of a polygon as the rasterizer uses them, normalized and still in slot order (spec/42_scanline_rasterizer.md R109). -/
def Polygon.normalized (mode : NormOverflow) (poly : Polygon) : List Vertex :=
  match poly with
  | .triangle v => (v.map (normalizeVertex mode)).toList
  | .quad v => (v.map (normalizeVertex mode)).toList

/-- The line misses the polygon's sorted Y range (spec/42_scanline_rasterizer.md R113). -/
def Polygon.outside (p : Params) (line : Int) (poly : Polygon) : Bool :=
  match poly with
  | .triangle slots =>
    let v := sort3 (slots.map (normalizeVertex p.normOverflow))
    outsideY v[0] v[2] line
  | .quad slots =>
    let v := sort4 p.quadSortNet (slots.map (normalizeVertex p.normOverflow))
    outsideY v[0] v[3] line

/-- The edge pair a polygon hands to rasterize on a line (spec/42_scanline_rasterizer.md R116, R122). -/
def Polygon.edges (p : Params) (line : Int) (poly : Polygon) : EdgePair :=
  match poly with
  | .triangle slots => triEdges (sort3 (slots.map (normalizeVertex p.normOverflow))) line
  | .quad slots => quadEdges p.quadEdgeTable (sort4 p.quadSortNet (slots.map (normalizeVertex p.normOverflow))) line

/-- The sorted vertices' ys rise (spec/42_scanline_rasterizer.md R110, R111). -/
abbrev Ascending {n : Nat} (v : Vector Vertex n) : Prop := (v.toList.map fun u => u.y.toInt).Pairwise (· ≤ ·)

/-- The binary32 values: multiples m · 2^e with |m| < 2^24 and e at least -149 (spec/00_scope.md R11). -/
def IsBinary32 (q : ℚ) : Prop := ∃ (m : Int) (e : Int), m.natAbs < 2 ^ 24 ∧ -149 ≤ e ∧ q = (m : ℚ) * pow2 e

/-- An int32 (spec/00_scope.md R10). -/
abbrev IsInt32 (v : Int) : Prop := -2 ^ 31 ≤ v ∧ v ≤ 2 ^ 31 - 1

end Sys2Proof.Machine
end

