-- ==== Sys2Proof/Certificates/Slice0/Obligations.lean ====
section
/-! DEFINITION. The statements for the provers. Each docstring names the rule of spec/ it formalises, or says it is derived.
The fields `port`, `replies`, `engineWait`, `draws` and `pramDraw`, and `takeEvent`, are the model's own (log entries 5 to 8):
where a clause names one of them, that clause is the model's choice and no rule of spec/. -/

open Sys2Proof Sys2Proof.Machine

/-! ## Encoding -/

/-- Sample words of spec/95_test_vectors.md V-E1 to V-E9, decoded. Derived. -/
def Obligations.DecodeSampleWords : Prop :=
  decode 0x00000000 = .command .nop ∧
  decode 0x01000000 = .command (.drawScanline 0) ∧
  decode 0x01000064 = .command (.drawScanline 100) ∧
  decode 0x010000FF = .command (.drawScanline 255) ∧
  decode 0x01000100 = .illegal .reservedBits ∧
  decode 0x00000001 = .illegal .nopArgument ∧
  decode 0x02000000 = .illegal .unknownOpcode

/-- R75, R76: the commands' words, and that decoding and encoding agree in both directions. -/
def Obligations.DecodeEncodeAgree : Prop :=
  (∀ i : Instr, i.WellFormed → decodeBytes (encodeBytes i) = .command i) ∧
  (∀ (w : Word) (i : Instr), decode w = .command i → encode i = w) ∧
  encode .nop = 0x00000000 ∧
  ∀ line : Byte, (encode (.drawScanline line)).toNat = 0x01000000 + line.toNat

/-- R77, R160: which words are illegal, and that one written to CMD while BUSY = 0 sets STATUS bit 8 and changes nothing else. -/
def Obligations.IllegalWordsSetIllcmd : Prop :=
  ∀ w : Word,
    ((∃ why, decode w = .illegal why) ↔
      (2 ≤ w.toNat / 2 ^ 24 ∨ (w.toNat / 2 ^ 24 ≤ 1 ∧ w.toNat / 2 ^ 8 % 2 ^ 16 ≠ 0) ∨
        (w.toNat / 2 ^ 24 = 0 ∧ w.toNat % 2 ^ 8 ≠ 0))) ∧
    ∀ (s : State) (rest : List PortEvent) (why : Illegal),
      s.Presents (s.writeAt 0x4 4 w) rest → s.status.busy = false → decode w = .illegal why →
      ∃ t, step s = .next t ∧ t = { s.takeEvent rest with status := { s.status with illcmd := true } } ∧
        t.status.read.getLsbD 8 = true

/-! ## The two commands -/

/-- R142: NOP's effect and frame, its one exception, its one word, and that OPCODE 0x00 with anything else is illegal. -/
def Obligations.NopHasNoEffect : Prop :=
  (∀ s : State, s.status.busy = false → exec .nop s = .next s) ∧
  (∀ s : State, s.status.busy = true → exec .nop s = .next { s with status := { s.status with cmdovf := true } }) ∧
  (∀ w : Word, decode w = .command .nop ↔ w = 0x00000000) ∧
  ∀ w : Word, w.toNat / 2 ^ 24 = 0 → w ≠ 0x00000000 → ∃ why, decode w = .illegal why

/-- R143: acceptance of DRAW_SCANLINE for every LINE, with its frame, and its exceptions. The wait and the draw count are the
model's own (log entry 5). -/
def Obligations.DrawScanlineAccepted : Prop :=
  (∀ (s : State) (line : Byte), s.status.busy = false →
    ∃ wait draws, exec (.drawScanline line) s = .next { s with
      status := { s.status with busy := true }, pendLine := line, taint := false, engineWait := wait, draws := draws }) ∧
  (∀ (s : State) (line : Byte), s.status.busy = true →
    exec (.drawScanline line) s = .next { s with status := { s.status with cmdovf := true } }) ∧
  (∀ w : Word, w.toNat / 2 ^ 8 % 2 ^ 16 ≠ 0 → decode w = .illegal .reservedBits)

/-- R161: a word written to CMD while BUSY = 1, whatever it is, sets STATUS bit 9 and is discarded, and the draw in progress
completes as it would have. -/
def Obligations.CommandOverrunDiscards : Prop :=
  ∀ (s : State) (w : Word) (rest : List PortEvent),
    s.Presents (s.writeAt 0x4 4 w) rest → s.status.busy = true →
    ∃ t, step s = .next t ∧ t = { s.takeEvent rest with status := { s.status with cmdovf := true } } ∧
      t.status.read.getLsbD 9 = true ∧
      t.engineStep = { (s.takeEvent rest).engineStep with
        status := { (s.takeEvent rest).engineStep.status with cmdovf := true } }

/-! ## Steps -/

/-- Derived (R140, R141): the next event is a CMD write whose word decodes to a command, and the step is that command's
meaning, once the event is taken; and `withFetchWord`, the model's own (log entry 18), presents exactly such an event. -/
def Obligations.StepRunsDecodedCommand : Prop :=
  ∀ (s : State) (w : Word) (i : Instr), decode w = .command i →
    (∀ rest, s.Presents (s.writeAt 0x4 4 w) rest → step s = exec i (s.takeEvent rest)) ∧
    ∃ s', step (s.withFetchWord 32 w.toNat) = exec i s' ∧ s'.port = s.port ∧
      { s' with engineWait := s.engineWait } = s

/-- Derived (R140, R175): the engine step runs when due and only while BUSY = 1; with nothing presented and BUSY = 0 the state
holds. That it is due at once when nothing is presented is the model's choice (log entry 5). -/
def Obligations.StepRunsEngineWhenDue : Prop :=
  (∀ s : State, s.engineDue = true → s.status.busy = true ∧ step s = .next s.engineStep) ∧
  (∀ s : State, s.status.busy = true → s.port = [] → s.engineDue = true) ∧
  ∀ s : State, s.status.busy = false → s.port = [] → step s = .next s

/-- Derived (R132, R163): no access, command or drawing stops the block. -/
def Obligations.StepAlwaysAnswers : Prop := ∀ s : State, ∃ t, step s = .next t

/-- R144, R146: the engine step as one transition: an untainted draw leaves drawScanline's pixels and depths, the other 47
slots keep theirs, LC_LAST_WRITTEN, LW_VALID and BUSY are as completion says, and nothing else changes. A tainted draw's own
slot and ZBUF are left open. The polygons drawn are PRAM entries 0..COUNT-1 in ascending order (R28, R108), each read from its
words as R32, R33, R35, R48 and R109 say: slots 0..2 when bit 0 of the header is 0, slots 0..3 when it is 1. -/
def Obligations.EngineStepCompletes : Prop :=
  (∀ s : State,
    s.polygons.length = s.polyCount.toNat ∧
    ∀ i < s.polyCount.toNat,
      let word (k : Nat) : Word := s.pramWord (0x40000 + 128 * i + 4 * k)
      let slot (j : Nat) : Vertex :=
        { x := word (1 + 5 * j), y := word (2 + 5 * j), z := word (3 + 5 * j), w := word (4 + 5 * j),
          color := (word (5 + 5 * j)).setWidth 16 }
      ((word 0).getLsbD 0 = false → s.polygons[i]? = some (.triangle #v[slot 0, slot 1, slot 2])) ∧
      ((word 0).getLsbD 0 = true → s.polygons[i]? = some (.quad #v[slot 0, slot 1, slot 2, slot 3]))) ∧
  ∀ s : State, s.engineDue = true → ∃ t, step s = .next t ∧
    (s.taint = false →
      t.lc[slotOf s.pendLine] = (drawScanline s.params s.pendLine s.polygons).pixels ∧
      t.zbuf = (drawScanline s.params s.pendLine s.polygons).depths) ∧
    (∀ k : Fin 48, k.val ≠ s.pendLine.toNat % 48 → t.lc[k] = s.lc[k]) ∧
    t.lastWritten.read.toNat = s.pendLine.toNat % 48 * 2 ^ 8 + s.pendLine.toNat ∧
    t.status = { s.status with busy := false, lwValid := true } ∧
    { t with lc := s.lc, zbuf := s.zbuf, lastWritten := s.lastWritten, status := s.status, draws := s.draws } = s

/-! ## Errors -/

/-- R49, R50, R51, R162: an access outside R49's table sets STATUS bit 10, returns 0 when it is a read, and changes nothing
else; a legal read, and a legal write other than to STATUS or CMD, sets no error. -/
def Obligations.RefusedAccesses : Prop :=
  ∀ (s : State) (a width : Nat) (v : Word) (rest : List PortEvent), a < 2 ^ 19 →
    (s.Presents (s.readAt a width) rest → ¬ LegalRead s.params a width →
      step s = .next { s.takeEvent rest with
        status := { s.status with buserr := true }, replies := 0 :: s.replies }) ∧
    (s.Presents (s.writeAt a width v) rest → ¬ LegalWordAccess s.params a width →
      step s = .next { s.takeEvent rest with status := { s.status with buserr := true } }) ∧
    (s.Presents (s.readAt a width) rest → LegalRead s.params a width →
      ∃ t, step s = .next t ∧ t.status = s.status) ∧
    (s.Presents (s.writeAt a width v) rest → LegalWordAccess s.params a width → a ≠ 0x4 → a ≠ 0x8 →
      ∃ t, step s = .next t ∧ t.status = s.status) ∧
    ({ s.status with buserr := true }).read.getLsbD 10 = true

/-- R165: the order BusError, CommandOverrun, IllegalCommand on CMD writes; one access raises at most one error, and errors of
earlier accesses stay recorded beside it. -/
def Obligations.ErrorPriority : Prop :=
  (∀ (s : State) (a width : Nat) (w : Word) (rest : List PortEvent),
    s.Presents (s.writeAt a width w) rest → 0x4 ≤ a → a < 0x8 →
    ((a ≠ 0x4 ∨ width ≠ 4) → step s = .next { s.takeEvent rest with status := { s.status with buserr := true } }) ∧
    (a = 0x4 → width = 4 → s.status.busy = true →
      step s = .next { s.takeEvent rest with status := { s.status with cmdovf := true } }) ∧
    (a = 0x4 → width = 4 → s.status.busy = false → (∀ i, decode w ≠ .command i) →
      step s = .next { s.takeEvent rest with status := { s.status with illcmd := true } })) ∧
  ∀ s t : State, step s = .next t →
    ([(s.status.illcmd, t.status.illcmd), (s.status.cmdovf, t.status.cmdovf), (s.status.buserr, t.status.buserr)].countP
      fun b => !b.1 && b.2) ≤ 1

/-- R27: each sticky bit stays 1 until a host write of STATUS clears it or reset clears it. -/
def Obligations.StickyBitsStay : Prop :=
  ∀ s t : State, step s = .next t →
    (∀ rest v, ¬ s.Presents (s.writeAt 0x8 4 v) rest) → (∀ rest, ¬ s.Presents .reset rest) →
    (s.status.illcmd = true → t.status.illcmd = true) ∧
    (s.status.cmdovf = true → t.status.cmdovf = true) ∧
    (s.status.buserr = true → t.status.buserr = true)

/-- R24, R167: a write of STATUS clears each of bits 8, 9 and 10 for which the value has a 1 and leaves every other bit
unchanged; nothing but STATUS changes. -/
def Obligations.StatusWriteClears : Prop :=
  ∀ (s : State) (v : Word) (rest : List PortEvent), s.Presents (s.writeAt 0x8 4 v) rest →
    ∃ t, step s = .next t ∧
      (∀ n < 32, t.status.read.getLsbD n = (s.status.read.getLsbD n && !((n == 8 || n == 9 || n == 10) && v.getLsbD n))) ∧
      { t with status := s.status } = s.takeEvent rest

/-! ## Status, registers -/

/-- R25: BUSY is 1 after a step exactly when the step accepted a DRAW_SCANLINE, or BUSY was 1 and the step was neither that
command's completion nor a reset. -/
def Obligations.BusyChangesOnly : Prop :=
  ∀ s t : State, step s = .next t →
    (t.status.busy = true ↔
      (s.status.busy = false ∧ ∃ rest w line, s.Presents (s.writeAt 0x4 4 w) rest ∧ decode w = .command (.drawScanline line)) ∨
      (s.status.busy = true ∧ s.engineDue = false ∧ ∀ rest, ¬ s.Presents .reset rest))

/-- R26: LW_VALID is 0 after reset, and 1 after a step exactly when a DRAW_SCANLINE completed in it, or it was 1 and the step
was not a reset. -/
def Obligations.LwValidChangesOnly : Prop :=
  State.reset.status.lwValid = false ∧
  ∀ s t : State, step s = .next t →
    (t.status.lwValid = true ↔ s.engineDue = true ∨ (s.status.lwValid = true ∧ ∀ rest, ¬ s.Presents .reset rest))

/-- R147: what an aligned 32-bit read of each register returns, at any time, and that it changes no other state. -/
def Obligations.RegisterReads : Prop :=
  ∀ (s : State) (a : Nat) (rest : List PortEvent), s.params.WellFormed →
    s.Presents (s.readAt a 4) rest → a < 0x18 → a % 4 = 0 →
    ∃ v : Word, step s = .next { s.takeEvent rest with replies := v :: s.replies } ∧
      (a = 0x00 → v.toNat = 48 + 192 * 2 ^ 8 + s.params.maxPolys * 2 ^ 16) ∧
      (a = 0x04 → v = 0) ∧
      (a = 0x08 → v.toNat = s.status.busy.toNat + s.status.lwValid.toNat * 2 + s.status.illcmd.toNat * 2 ^ 8 +
        s.status.cmdovf.toNat * 2 ^ 9 + s.status.buserr.toNat * 2 ^ 10) ∧
      (a = 0x0C → v.toNat = s.polyCount.toNat) ∧
      (a = 0x10 → v.toNat = s.lastWritten.line.toNat + s.lastWritten.slot.toNat * 2 ^ 8) ∧
      (a = 0x14 → v.toNat = s.lastConsumed.toNat)

/-- R28, R148, R151: what an aligned 32-bit write of each register but CMD does, and nothing else; POLY_COUNT stores
min(v, MAX_POLYS) and sets TAINT when BUSY = 1. -/
def Obligations.RegisterWrites : Prop :=
  ∀ (s : State) (a : Nat) (v : Word) (rest : List PortEvent), s.params.WellFormed →
    s.Presents (s.writeAt a 4 v) rest → a < 0x18 → a % 4 = 0 → a ≠ 0x04 →
    ∃ t, step s = .next t ∧
      (a = 0x00 ∨ a = 0x10 → t = s.takeEvent rest) ∧
      (a = 0x08 → t = { s.takeEvent rest with status := s.status.clear v }) ∧
      (a = 0x0C → ∃ count : BitVec 12, count.toNat = min v.toNat s.params.maxPolys ∧
        t = { s.takeEvent rest with polyCount := count, taint := s.taint || s.status.busy }) ∧
      (a = 0x14 → ∃ line : Byte, line.toNat = v.toNat % 2 ^ 8 ∧ t = { s.takeEvent rest with lastConsumed := line })

/-- R30: the block never reads LC_LAST_CONSUMED and writes it only at reset: two states that differ only there take steps that
differ only there, unless the step is the host's read of it. -/
def Obligations.LastConsumedIsHostScratch : Prop :=
  (∀ (s t : State) (c : Byte), step s = .next t → (∀ rest, ¬ s.Presents (s.readAt 0x14 4) rest) →
    ∃ c', step { s with lastConsumed := c } = .next { t with lastConsumed := c' }) ∧
  ∀ s t : State, step s = .next t → t.lastConsumed ≠ s.lastConsumed →
    (∃ rest v, s.Presents (s.writeAt 0x14 4 v) rest) ∨ ∃ rest, s.Presents .reset rest

/-! ## Reset -/

/-- R42: the registers at reset. PRAM, LC and ZBUF are unspecified there and nothing is said of them. -/
def Obligations.ResetRegisters : Prop :=
  State.reset.registerRead .cfg = 0x0800C030 ∧ State.reset.registerRead .status = 0 ∧
  State.reset.registerRead .polyCount = 0 ∧ State.reset.registerRead .lastWritten = 0 ∧
  State.reset.registerRead .lastConsumed = 0 ∧ State.reset.pendLine = 0 ∧ State.reset.taint = false

/-- R177, R178: a reset, also one while BUSY = 1, leaves the registers at their reset values and abandons an accepted draw;
nothing in the outcome depends on what PRAM, LC, ZBUF or any register held. -/
def Obligations.ResetAbandonsAndForgets : Prop :=
  (∀ (s : State) (rest : List PortEvent), s.Presents .reset rest →
    ∃ t, step s = .next t ∧
      t.status = ⟨false, false, false, false, false⟩ ∧ t.polyCount = 0 ∧ t.lastWritten = ⟨0, 0⟩ ∧ t.lastConsumed = 0 ∧
      t.pendLine = 0 ∧ t.taint = false ∧ t.engineDue = false ∧ t.params = s.params ∧ t.port = rest) ∧
  ∀ (s s' : State) (rest : List PortEvent), s.Presents .reset rest → s'.Presents .reset rest →
    s.params = s'.params → s.draws = s'.draws → s.replies = s'.replies → step s = step s'

/-! ## Memory -/

/-- R149: a PRAM write stores all 32 bits of its word, the window being little-endian (R52), changes no other PRAM byte, sets
TAINT if BUSY = 1 and changes nothing else; a read returns the word and changes nothing. -/
def Obligations.PramReadAfterWrite : Prop :=
  (∀ (s : State) (a : Nat) (v : Word) (rest : List PortEvent), s.Presents (s.writeAt a 4 v) rest → s.params.WellFormed →
    0x40000 ≤ a → a < 0x40000 + 128 * s.params.maxPolys → a % 4 = 0 →
    ∃ t, step s = .next t ∧ t.pramWord a = v ∧
      (∀ k < 4, (t.pramByte (a + k)).toNat = v.toNat / 2 ^ (8 * k) % 2 ^ 8) ∧
      (∀ b, b < a ∨ a + 4 ≤ b → t.pramByte b = s.pramByte b) ∧
      t.taint = (s.taint || s.status.busy) ∧
      { t with pram := s.pram, taint := s.taint } = s.takeEvent rest) ∧
  ∀ (s : State) (a : Nat) (rest : List PortEvent), s.Presents (s.readAt a 4) rest → s.params.WellFormed →
    0x40000 ≤ a → a < 0x40000 + 128 * s.params.maxPolys → a % 4 = 0 →
    step s = .next { s.takeEvent rest with replies := s.pramWord a :: s.replies }

/-- R47, R53, R150: a 2-byte read returns the pixel and a 4-byte read two pixels, the even one low, from any slot that is not
being drawn, and changes nothing; of the slot being drawn the value is open (R150). -/
def Obligations.LineCacheReads : Prop :=
  ∀ (s : State) (slot : Fin 48) (x : Fin 256) (rest : List PortEvent),
    (s.Presents (s.readAt (0x10000 + 512 * slot.val + 2 * x.val) 2) rest →
      ∃ v draws, step s = .next { s.takeEvent rest with replies := v :: s.replies, draws := draws } ∧ v.toNat < 2 ^ 16 ∧
        ((s.status.busy = false ∨ slot.val ≠ s.pendLine.toNat % 48) →
          draws = s.draws ∧ v.toNat = (s.lc[slot][x]).toNat)) ∧
    (s.Presents (s.readAt (0x10000 + 512 * slot.val + 2 * x.val) 4) rest → x.val % 2 = 0 →
      ∃ v draws, step s = .next { s.takeEvent rest with replies := v :: s.replies, draws := draws } ∧
        ((s.status.busy = false ∨ slot.val ≠ s.pendLine.toNat % 48) →
          draws = s.draws ∧ v.toNat = (s.lc[slot][x]).toNat + (s.lc[slot][x + 1]).toNat * 2 ^ 16))

/-- R37, R43, R156: the line cache and ZBUF change only in the engine step of an accepted DRAW_SCANLINE, and there only slot
PEND_LINE mod 48, or at reset. -/
def Obligations.LineCacheWriters : Prop :=
  ∀ s t : State, step s = .next t → (∀ rest, ¬ s.Presents .reset rest) →
    (∀ slot : Fin 48, t.lc[slot] ≠ s.lc[slot] →
      s.engineDue = true ∧ s.status.busy = true ∧ slot.val = s.pendLine.toNat % 48) ∧
    (t.zbuf ≠ s.zbuf → s.engineDue = true)

/-- R68: PRAM, POLY_COUNT and LC_LAST_CONSUMED are left alone by the engine step, and PRAM changes only by a host write in its
window or at reset. -/
def Obligations.PramWriters : Prop :=
  (∀ s t : State, s.engineDue = true → step s = .next t →
    (∀ a, t.pramByte a = s.pramByte a) ∧ t.polyCount = s.polyCount ∧ t.lastConsumed = s.lastConsumed) ∧
  ∀ (s t : State) (b : Nat), step s = .next t → t.pramByte b ≠ s.pramByte b →
    (∃ rest, s.Presents .reset rest) ∨
    ∃ rest a v, s.Presents (s.writeAt a 4 v) rest ∧ 0x40000 ≤ a ∧ a < 0x40000 + 128 * s.params.maxPolys ∧
      a ≤ b ∧ b < a + 4

/-- R33, R48, R81, R83: the five writes of VTX put a vertex into its slot, as the rasterizer reads it. -/
def Obligations.VtxWritesVertexSlot : Prop :=
  ∀ (s : State) (i j : Nat) (x y z w : Int) (c : Nat),
    s.params.WellFormed → s.status.busy = false → i < s.params.maxPolys → (PseudoStmt.vtx i j x y z w c).WellFormed →
    s.port = (expand (.vtx i j x y z w c)).filterMap (accessOf s.params) →
    ∃ t, Runs 5 s t ∧ t.port = [] ∧
      (t.vertexSlot i j).x.toInt = x ∧ (t.vertexSlot i j).y.toInt = y ∧ (t.vertexSlot i j).z.toInt = z ∧
      (t.vertexSlot i j).w.toInt = w ∧ (t.vertexSlot i j).color.toNat = c % 2 ^ 16

/-- R83, R84: the word DRAW n writes is the encoding of DRAW_SCANLINE n, NOP's is NOP's, and an assembler refuses a LINE
outside 0..255. -/
def Obligations.MnemonicsEncode : Prop :=
  (∀ (p : Params) (n : Nat), n ≤ 255 →
    (expand (.draw n)).filterMap (accessOf p) =
      [.write (p.windowBase + 0x4) 4 (encode (.drawScanline (BitVec.ofNat 8 n)))] ∧
    assembleDraw n = some (encode (.drawScanline (BitVec.ofNat 8 n)))) ∧
  (∀ p : Params, (expand .nop).filterMap (accessOf p) = [.write (p.windowBase + 0x4) 4 (encode .nop)]) ∧
  assembleDraw 100 = some 0x01000064 ∧
  ∀ n : Nat, 255 < n → assembleDraw n = none

/-! ## Whole-machine rules -/

/-- Derived: every step keeps the invariant: legal parameters (R7), PRAM in canonical form and in its window (R45), COUNT at
most MAX_POLYS (R28), LC_LAST_WRITTEN's SLOT being LINE mod 48 (R29). -/
def Obligations.InvariantKept : Prop := ∀ s t : State, s.Inv → step s = .next t → t.Inv

/-- Derived: the invariant holds right after reset. -/
def Obligations.InvariantAtReset : Prop := State.reset.Inv

/-- R19: no command changes the parameters. -/
def Obligations.ParametersConstant : Prop := ∀ s t : State, step s = .next t → t.params = s.params

/-- Derived (R145): an accepted DRAW_SCANLINE's engine step comes after finitely many host steps, unless a reset comes first.
The bound by the wait is the model's own (log entry 5). -/
def Obligations.DrawProgress : Prop :=
  ∀ s : State, s.status.busy = true → (∀ e ∈ s.port, e ≠ .reset) →
    ∃ (k : Nat) (t : State), k ≤ s.engineWait ∧ k ≤ s.port.length ∧ Runs k s t ∧
      t.engineDue = true ∧ t.status.busy = true ∧ t.pendLine = s.pendLine

/-- Derived (R143, R144, R146, R151, R182, R184): DRAW_SCANLINE from the CMD write to its completion. From an idle block, with
no reset and no CMD, PRAM or POLY_COUNT write behind it, the run comes to a state where the line's slot holds drawScanline's
pixels over the polygons present at acceptance, and LC_LAST_WRITTEN, LW_VALID and BUSY say so. -/
def Obligations.DrawScanlineDraws : Prop :=
  ∀ (s : State) (line : Byte) (rest : List PortEvent), s.status.busy = false →
    s.port = s.writeAt 0x4 4 (encode (.drawScanline line)) :: rest →
    (∀ e ∈ rest, e ≠ .reset ∧ disturbs s.params e = false) →
    ∃ (k : Nat) (t : State), k ≤ rest.length + 2 ∧ Runs k s t ∧
      t.lc[slotOf line] = (drawScanline s.params line s.polygons).pixels ∧
      t.zbuf = (drawScanline s.params line s.polygons).depths ∧
      t.lastWritten.line = line ∧ t.lastWritten.slot.toNat = line.toNat % 48 ∧
      t.status.busy = false ∧ t.status.lwValid = true ∧
      (t.status.cmdovf = true → s.status.cmdovf = true) ∧ (t.status.illcmd = true → s.status.illcmd = true)

/-- Derived (R138, which the spec derives from R106, R132 and R137): the drawn slot and ZBUF depend only on L, COUNT, the used
words of the live entries and four of the parameters. -/
def Obligations.DrawDependsOnlyOnLiveWords : Prop :=
  ∀ s s' t t' : State, s.engineDue = true → s'.engineDue = true → s.taint = false → s'.taint = false →
    s.params.interpArith = s'.params.interpArith → s.params.normOverflow = s'.params.normOverflow →
    s.params.quadSortNet = s'.params.quadSortNet → s.params.quadEdgeTable = s'.params.quadEdgeTable →
    s.pendLine = s'.pendLine → s.polyCount = s'.polyCount →
    (∀ i < s.polyCount.toNat, SameUsedWords i s s') → step s = .next t → step s' = .next t' →
    t.lc[slotOf s.pendLine] = t'.lc[slotOf s.pendLine] ∧ t.zbuf = t'.zbuf

/-- R159: two DRAW_SCANLINEs of one LINE, with no PRAM or POLY_COUNT write between them, leave the same slot contents. -/
def Obligations.RedrawIsRepeatable : Prop :=
  ∀ (s : State) (line : Byte), s.status.busy = false →
    ∃ a c, exec (.drawScanline line) s = .next a ∧ exec (.drawScanline line) a.engineStep = .next c ∧
      c.engineStep.lc[slotOf line] = a.engineStep.lc[slotOf line]

/-- Derived (R151, R182, R184): a host that keeps its duties in the event it presents next neither loses a command nor taints
the draw. -/
def Obligations.DisciplineKeepsDrawClean : Prop :=
  ∀ s t : State, s.Disciplined = true → step s = .next t →
    (t.taint = true → s.taint = true) ∧ (t.status.cmdovf = true → s.status.cmdovf = true)

/-! ## Normalizer -/

/-- R86: w = 0 passes a vertex through unchanged, under either setting of NORM_OVERFLOW. -/
def Obligations.NormalizeZeroW : Prop := ∀ (mode : NormOverflow) (v : Vertex), v.w.toInt = 0 → normalizeVertex mode v = v

/-- R87 to R90, inside the bounds of R91: x' - 128 is x·128/w and y' - 96 is -y·96/w, each truncated toward zero before the
offset is added, for either sign of w; z, w and color pass through. -/
def Obligations.NormalizeTruncates : Prop :=
  ∀ (mode : NormOverflow) (v : Vertex), v.w.toInt ≠ 0 →
    (v.x.toInt.natAbs < 2 ^ 23 ∨ (mode = .wrap ∧ 256 ≤ v.w.toInt.natAbs) →
      (normalizeVertex mode v).x.toInt = trunc0 ((v.x.toInt * 128 : ℚ) / v.w.toInt) + 128) ∧
    (v.y.toInt.natAbs < 2 ^ 23 ∨ (mode = .wrap ∧ 256 ≤ v.w.toInt.natAbs) →
      (normalizeVertex mode v).y.toInt = trunc0 ((-v.y.toInt * 96 : ℚ) / v.w.toInt) + 96) ∧
    (normalizeVertex mode v).z = v.z ∧ (normalizeVertex mode v).w = v.w ∧ (normalizeVertex mode v).color = v.color

/-- R91 under WRAP: the exact x' and y', whatever the operands, reduced modulo 2^32 into int32. -/
def Obligations.NormalizeWraps : Prop :=
  ∀ v : Vertex, v.w.toInt ≠ 0 →
    (∃ k : Int, (normalizeVertex .wrap v).x.toInt = Int.tdiv (v.x.toInt * 128) v.w.toInt + 128 + k * 2 ^ 32) ∧
    (∃ k : Int, (normalizeVertex .wrap v).y.toInt = Int.tdiv (-v.y.toInt * 96) v.w.toInt + 96 + k * 2 ^ 32)

/-! ## Interpolator -/

/-- R94: start = end returns exactly min, in both arithmetics. -/
def Obligations.InterpolateTie : Prop :=
  ∀ (arith : InterpArith) (min max current start : Int), interpolate arith min max start current start = min

/-- Derived (R93, R95, R96): EXACT in whole numbers. For start < end the gradient clamps to min and max at the ends and between
them the whole sum is one truncating division; start > end is the mirror image. -/
def Obligations.InterpolateExactQuotient : Prop :=
  ∀ min max start current stop : Int,
    (start < stop → current ≤ start → interpolate .exact min max start current stop = min) ∧
    (start < stop → stop ≤ current → interpolate .exact min max start current stop = max) ∧
    (start < stop → start ≤ current → current ≤ stop →
      interpolate .exact min max start current stop =
        Int.tdiv (min * (stop - start) + (current - start) * (max - min)) (stop - start)) ∧
    (stop < start →
      interpolate .exact min max start current stop = interpolate .exact min max (-start) (-current) (-stop))

/-- Derived (R96 to R98, R100): EXACT lies between min and max and moves one way as current increases. BINARY32 is R97's sum,
truncated where it lies in int32; within 24 bits it returns min at or before start, max at or after end, and lies between
them; and it moves one way wherever the sums lie in int32. That beyond 24 bits it gives at or before start what R97 gives,
trunc0 (fl min), where R100 says min, is the model's choice (log entry 25). -/
def Obligations.InterpolateExactMonotone : Prop :=
  (∀ min max start current stop : Int,
    (min ≤ max → min ≤ interpolate .exact min max start current stop ∧ interpolate .exact min max start current stop ≤ max) ∧
    (max ≤ min → max ≤ interpolate .exact min max start current stop ∧ interpolate .exact min max start current stop ≤ min) ∧
    ∀ later : Int, start < stop → current ≤ later →
      (min ≤ max → interpolate .exact min max start current stop ≤ interpolate .exact min max start later stop) ∧
      (max ≤ min → interpolate .exact min max start later stop ≤ interpolate .exact min max start current stop)) ∧
  (∀ min max start current stop : Int, start ≠ stop →
    let quotient := fl (fl ((current - start : Int) : ℚ) / fl ((stop - start : Int) : ℚ))
    let g := if quotient < 0 then 0 else if 1 < quotient then 1 else quotient
    let r := fl (fl (min : ℚ) + fl (fl ((max - min : Int) : ℚ) * g))
    binary32Sum min max start current stop = r ∧
    (-2 ^ 31 ≤ r → r ≤ 2 ^ 31 - 1 → interpolate .binary32 min max start current stop = trunc0 r)) ∧
  (∀ min max start current stop : Int, min.natAbs ≤ 2 ^ 24 → max.natAbs ≤ 2 ^ 24 → (max - min).natAbs ≤ 2 ^ 24 →
    (start < stop → current ≤ start → interpolate .binary32 min max start current stop = min) ∧
    (start < stop → stop ≤ current → interpolate .binary32 min max start current stop = max) ∧
    (min ≤ max → min ≤ interpolate .binary32 min max start current stop ∧ interpolate .binary32 min max start current stop ≤ max) ∧
    (max ≤ min → max ≤ interpolate .binary32 min max start current stop ∧ interpolate .binary32 min max start current stop ≤ min)) ∧
  (∀ min max start current later stop : Int, start < stop → current ≤ later →
    -2 ^ 31 ≤ binary32Sum min max start current stop → binary32Sum min max start current stop ≤ 2 ^ 31 - 1 →
    -2 ^ 31 ≤ binary32Sum min max start later stop → binary32Sum min max start later stop ≤ 2 ^ 31 - 1 →
    (min ≤ max → interpolate .binary32 min max start current stop ≤ interpolate .binary32 min max start later stop) ∧
    (max ≤ min → interpolate .binary32 min max start later stop ≤ interpolate .binary32 min max start current stop)) ∧
  ∀ min max start current stop : Int, start < stop → current ≤ start →
    -2 ^ 31 ≤ fl (min : ℚ) → fl (min : ℚ) ≤ 2 ^ 31 - 1 →
    interpolate .binary32 min max start current stop = trunc0 (fl (min : ℚ))

/-- Derived (R98, R99): from int32 endpoints the result is an int32 in both arithmetics. -/
def Obligations.InterpolateFitsInt32 : Prop :=
  ∀ (arith : InterpArith) (min max start current stop : Int), IsInt32 min → IsInt32 max →
    IsInt32 (interpolate arith min max start current stop)

/-- Derived (R11): fl gives a binary32 value, no binary32 value is nearer, and where another is as near, fl's is the even one:
an even multiple of the distance between the two. That binary32 has no upper exponent bound here is the model's choice (log
entry 15, PRESUMED). -/
def Obligations.FlIsNearestBinary32 : Prop :=
  ∀ q : ℚ, IsBinary32 (fl q) ∧ (∀ v : ℚ, IsBinary32 v → |q - fl q| ≤ |q - v|) ∧
    ∀ v : ℚ, IsBinary32 v → v ≠ fl q → |q - v| = |q - fl q| → ∃ k : Int, fl q = 2 * (k : ℚ) * |fl q - v|

/-- R103: bit 15 of an interpolated color is 1, and bit 15 of the inputs is not read, in both arithmetics. -/
def Obligations.ColorOpacity : Prop :=
  ∀ (arith : InterpArith) (min max : Half) (start current stop : Int),
    (interpolateColor arith min max start current stop).getLsbD 15 = true ∧
    interpolateColor arith (min ||| 0x8000) (max ||| 0x8000) start current stop =
      interpolateColor arith min max start current stop

/-- Derived (R101, R102), in both arithmetics: each of the three channels of the result is its own interpolation, with no bit
lost and no carry, and lies between that channel's values in the two colors. -/
def Obligations.ColorChannelsIndependent : Prop :=
  ∀ (arith : InterpArith) (first second : Half) (start current stop : Int), ∀ k < 3,
    let channel (color : Half) : Nat := color.toNat / 32 ^ k % 32
    let result := channel (interpolateColor arith first second start current stop)
    (result : Int) = interpolate arith (channel first) (channel second) start current stop ∧
    (channel first ≤ channel second → channel first ≤ result ∧ result ≤ channel second) ∧
    (channel second ≤ channel first → channel second ≤ result ∧ result ≤ channel first)

/-! ## Sorting and edges -/

/-- Derived (R110, R112): the triangle network is the three CAS of R110 in their order; it leaves the same vertices with rising
ys; and which slot ends where, equal ys included, is as CAS moves them: the network is not stable. -/
def Obligations.Sort3Sorts : Prop :=
  (∀ v : Vector Vertex 3, sort3 v = cas (cas (cas v 0 1) 0 2) 1 2 ∧ Ascending (sort3 v) ∧ (sort3 v).toList.Perm v.toList) ∧
  ∀ a b c : Vertex,
    (a.y.toInt ≤ b.y.toInt → b.y.toInt ≤ c.y.toInt → sort3 #v[a, b, c] = #v[a, b, c]) ∧
    (a.y.toInt ≤ c.y.toInt → c.y.toInt < b.y.toInt → sort3 #v[a, b, c] = #v[a, c, b]) ∧
    (c.y.toInt < a.y.toInt → a.y.toInt < b.y.toInt → sort3 #v[a, b, c] = #v[c, a, b]) ∧
    (c.y.toInt < a.y.toInt → a.y.toInt = b.y.toInt → sort3 #v[a, b, c] = #v[c, b, a]) ∧
    (b.y.toInt < a.y.toInt → a.y.toInt ≤ c.y.toInt → sort3 #v[a, b, c] = #v[b, a, c]) ∧
    (b.y.toInt ≤ c.y.toInt → c.y.toInt < a.y.toInt → sort3 #v[a, b, c] = #v[b, c, a]) ∧
    (c.y.toInt < b.y.toInt → b.y.toInt < a.y.toInt → sort3 #v[a, b, c] = #v[c, b, a])

/-- Derived (R111, R112; that a legal network is one that sorts is the model's choice, log entry 24): every legal QUAD_SORT_NET
leaves the same vertices with rising ys and moves nothing where they already rise. The default network is the six CAS of R111
in their order: the three that bring up position 1, then the triangle network on the rest; and on the equal ys of R111's
corner cases, and of any vertices so ordered, it leaves the slots as R111 says. -/
def Obligations.Sort4Sorts : Prop :=
  Params.default.WellFormed ∧ Params.default.quadSortNet = defaultQuadSortNet ∧
  (∀ (p : Params) (v : Vector Vertex 4), p.NetSorts →
    Ascending (sort4 p.quadSortNet v) ∧ (sort4 p.quadSortNet v).toList.Perm v.toList ∧
    (Ascending v → sort4 p.quadSortNet v = v)) ∧
  (∀ v : Vector Vertex 4,
    let u := cas (cas (cas v 0 1) 0 2) 0 3
    let rest := sort3 #v[u[1], u[2], u[3]]
    sort4 defaultQuadSortNet v = cas (cas (cas u 1 2) 1 3) 2 3 ∧
    sort4 defaultQuadSortNet v = #v[u[0], rest[0], rest[1], rest[2]]) ∧
  ∀ a b c d : Vertex,
    (a.y.toInt = b.y.toInt → b.y.toInt = c.y.toInt → d.y.toInt < c.y.toInt →
      sort4 defaultQuadSortNet #v[a, b, c, d] = #v[d, b, c, a]) ∧
    (a.y.toInt = b.y.toInt → c.y.toInt < b.y.toInt → c.y.toInt = d.y.toInt →
      sort4 defaultQuadSortNet #v[a, b, c, d] = #v[c, d, a, b])

/-- R112: CAS exchanges the records when the earlier y is strictly greater and otherwise moves nothing. -/
def Obligations.CasSwapsStrictly : Prop :=
  ∀ (n : Nat) (v : Vector Vertex n) (p q : Fin n), p < q →
    (v[q].y.toInt < v[p].y.toInt →
      (cas v p q)[p] = v[q] ∧ (cas v p q)[q] = v[p] ∧ ∀ r : Fin n, r ≠ p → r ≠ q → (cas v p q)[r] = v[r]) ∧
    (v[p].y.toInt ≤ v[q].y.toInt → cas v p q = v)

/-- Derived (R109 to R113, R121, R135): a polygon all of whose normalized vertices lie below the line, or all above it, changes
nothing; one on the line is never skipped: a triangle, and a quad under any network and table, is rasterized over the edge
pair its sorted vertices select, exactly when the line lies in their Y range, both ends included; and where the network is
legal (the model's notion, log entry 24) that is whenever some normalized vertex is at or above the line and some at or below
it. -/
def Obligations.PolygonOffLineChangesNothing : Prop :=
  (∀ (p : Params) (line : Int) (buf : LineBuf) (poly : Polygon),
    ((∀ v ∈ poly.normalized p.normOverflow, line < v.y.toInt) ∨ (∀ v ∈ poly.normalized p.normOverflow, v.y.toInt < line)) →
    drawPolygon p line buf poly = buf) ∧
  (∀ (p : Params) (line : Int) (buf : LineBuf) (slots : Vector Vertex 3),
    let v := sort3 (slots.map (normalizeVertex p.normOverflow))
    drawPolygon p line buf (.triangle slots) =
      if v[0].y.toInt ≤ line ∧ line ≤ v[2].y.toInt then rasterize p.interpArith line (triEdges v line) buf else buf) ∧
  (∀ (p : Params) (line : Int) (buf : LineBuf) (slots : Vector Vertex 4),
    let v := sort4 p.quadSortNet (slots.map (normalizeVertex p.normOverflow))
    drawPolygon p line buf (.quad slots) =
      if v[0].y.toInt ≤ line ∧ line ≤ v[3].y.toInt then rasterize p.interpArith line (quadEdges p.quadEdgeTable v line) buf
      else buf) ∧
  ∀ (p : Params) (line : Int) (buf : LineBuf) (poly : Polygon), p.NetSorts →
    (∃ v ∈ poly.normalized p.normOverflow, v.y.toInt ≤ line) → (∃ v ∈ poly.normalized p.normOverflow, line ≤ v.y.toInt) →
    poly.outside p line = false ∧ drawPolygon p line buf poly = rasterize p.interpArith line (poly.edges p line) buf

/-- R114 to R117: the triangle's edge pair, by the sign of cross2 and the Y sub-range. -/
def Obligations.TriangleEdgeTable : Prop :=
  ∀ (v1 v2 v3 : Vertex) (line : Int),
    let cross2 := (v2.x.toInt - v1.x.toInt) * (v3.y.toInt - v1.y.toInt) - (v2.y.toInt - v1.y.toInt) * (v3.x.toInt - v1.x.toInt)
    (0 < cross2 → line < v2.y.toInt → triEdges #v[v1, v2, v3] line = ⟨v1, v3, v1, v2⟩) ∧
    (0 < cross2 → v2.y.toInt ≤ line → triEdges #v[v1, v2, v3] line = ⟨v1, v3, v2, v3⟩) ∧
    (cross2 ≤ 0 → line < v2.y.toInt → triEdges #v[v1, v2, v3] line = ⟨v1, v2, v1, v3⟩) ∧
    (cross2 ≤ 0 → v2.y.toInt ≤ line → triEdges #v[v1, v2, v3] line = ⟨v2, v3, v1, v3⟩)

/-- R119, R120, R122 with the default table: the quad's twelve edge pairs, by the signs of cross2 and cross3 and the range. -/
def Obligations.QuadEdgeTable : Prop :=
  ∀ (v1 v2 v3 v4 : Vertex) (line : Int),
    let cross2 := (v2.x.toInt - v1.x.toInt) * (v4.y.toInt - v1.y.toInt) - (v2.y.toInt - v1.y.toInt) * (v4.x.toInt - v1.x.toInt)
    let cross3 := (v3.x.toInt - v1.x.toInt) * (v4.y.toInt - v1.y.toInt) - (v3.y.toInt - v1.y.toInt) * (v4.x.toInt - v1.x.toInt)
    let e := quadEdges defaultQuadEdgeTable #v[v1, v2, v3, v4] line
    let range0 := line < v2.y.toInt
    let range1 := v2.y.toInt ≤ line ∧ line < v3.y.toInt
    let range2 := v2.y.toInt ≤ line ∧ v3.y.toInt ≤ line
    (0 < cross2 → 0 < cross3 →
      (range0 → e = ⟨v1, v4, v1, v2⟩) ∧ (range1 → e = ⟨v1, v4, v2, v3⟩) ∧ (range2 → e = ⟨v1, v4, v3, v4⟩)) ∧
    (cross2 ≤ 0 → cross3 ≤ 0 →
      (range0 → e = ⟨v1, v2, v1, v4⟩) ∧ (range1 → e = ⟨v2, v3, v1, v4⟩) ∧ (range2 → e = ⟨v3, v4, v1, v4⟩)) ∧
    (0 < cross2 → cross3 ≤ 0 →
      (range0 → e = ⟨v1, v3, v1, v2⟩) ∧ (range1 → e = ⟨v1, v3, v2, v4⟩) ∧ (range2 → e = ⟨v3, v4, v2, v4⟩)) ∧
    (cross2 ≤ 0 → 0 < cross3 →
      (range0 → e = ⟨v1, v2, v1, v3⟩) ∧ (range1 → e = ⟨v2, v4, v1, v3⟩) ∧ (range2 → e = ⟨v2, v4, v3, v4⟩))

/-- Derived (R122): a quad whose v3 coincides with v4 selects, above that vertex, the edges of the triangle (v1, v2, v4). -/
def Obligations.DegenerateQuadIsTriangle : Prop :=
  ∀ (v1 v2 v4 : Vertex) (line : Int), line < v4.y.toInt →
    quadEdges defaultQuadEdgeTable #v[v1, v2, v4, v4] line = triEdges #v[v1, v2, v4] line

/-- R133: on sorted vertices every selected edge has start ≤ end, for every legal table. -/
def Obligations.EdgesDescendOnSortedVertices : Prop :=
  (∀ (v : Vector Vertex 3) (line : Int), Ascending v →
    (triEdges v line).a.y.toInt ≤ (triEdges v line).b.y.toInt ∧ (triEdges v line).c.y.toInt ≤ (triEdges v line).d.y.toInt) ∧
  ∀ (p : Params) (v : Vector Vertex 4) (line : Int), p.EdgesDescend → Ascending v →
    (quadEdges p.quadEdgeTable v line).a.y.toInt ≤ (quadEdges p.quadEdgeTable v line).b.y.toInt ∧
    (quadEdges p.quadEdgeTable v line).c.y.toInt ≤ (quadEdges p.quadEdgeTable v line).d.y.toInt

/-! ## Span fill and drawScanline -/

/-- R124, R125: the x of each edge on the line, the clamps and the two aborts. -/
def Obligations.SpanClamps : Prop :=
  ∀ (arith : InterpArith) (line : Int) (e : EdgePair),
    let l := interpolate arith e.a.x.toInt e.b.x.toInt e.a.y.toInt line e.b.y.toInt
    let r := interpolate arith e.c.x.toInt e.d.x.toInt e.c.y.toInt line e.d.y.toInt
    (255 < l ∨ r < 0 → spanOf arith line e = none ∧ ∀ buf, rasterize arith line e buf = buf) ∧
    (l ≤ 255 → 0 ≤ r → spanOf arith line e = some ⟨max l 0, min r 255⟩) ∧
    ∀ sp, spanOf arith line e = some sp → 0 ≤ sp.lx0 ∧ sp.lx0 ≤ 255 ∧ 0 ≤ sp.lx1 ∧ sp.lx1 ≤ 255

/-- R123, R126 to R130, R134: what rasterize leaves at each pixel, the loop over the span being independent pixel by pixel:
the depth is interpolated along each edge in Y and then across the clamped span in X, and so is the color; the depth is stored
without loss. -/
def Obligations.RasterizePixelwise : Prop :=
  ∀ (arith : InterpArith) (line : Int) (e : EdgePair) (sp : Span) (buf : LineBuf) (x : Fin 256),
    spanOf arith line e = some sp →
    let z1 := interpolate arith e.a.z.toInt e.b.z.toInt e.a.y.toInt line e.b.y.toInt
    let z2 := interpolate arith e.c.z.toInt e.d.z.toInt e.c.y.toInt line e.d.y.toInt
    let color1 := interpolateColor arith e.a.color e.b.color e.a.y.toInt line e.b.y.toInt
    let color2 := interpolateColor arith e.c.color e.d.color e.c.y.toInt line e.d.y.toInt
    let z := interpolate arith z1 z2 sp.lx0 x.val sp.lx1
    let color := interpolateColor arith color1 color2 sp.lx0 x.val sp.lx1
    let out := rasterize arith line e buf
    (pixelDepth arith line e sp x = z ∧ pixelColor arith line e sp x = color) ∧
    (sp.lx0 ≤ x.val ∧ (x.val : Int) ≤ sp.lx1 ∧ z ≤ (buf.depths[x]).toInt →
      out.pixels[x] = color ∧ (out.depths[x]).toInt = z) ∧
    (¬ (sp.lx0 ≤ x.val ∧ (x.val : Int) ≤ sp.lx1 ∧ z ≤ (buf.depths[x]).toInt) →
      out.pixels[x] = buf.pixels[x] ∧ out.depths[x] = buf.depths[x])

/-- Derived (R136, EXACT): the depth and color ramp runs from the left edge's values on the line at the clamped left bound to
the right edge's at the clamped right bound. -/
def Obligations.ClampedRampEnds : Prop :=
  ∀ (line : Int) (e : EdgePair) (sp : Span) (x : Fin 256), spanOf .exact line e = some sp → sp.lx0 < sp.lx1 →
    ((x.val : Int) = sp.lx0 →
      pixelDepth .exact line e sp x = interpolate .exact e.a.z.toInt e.b.z.toInt e.a.y.toInt line e.b.y.toInt ∧
      pixelColor .exact line e sp x = interpolateColor .exact e.a.color e.b.color e.a.y.toInt line e.b.y.toInt) ∧
    ((x.val : Int) = sp.lx1 →
      pixelDepth .exact line e sp x = interpolate .exact e.c.z.toInt e.d.z.toInt e.c.y.toInt line e.d.y.toInt ∧
      pixelColor .exact line e sp x = interpolateColor .exact e.c.color e.d.color e.c.y.toInt line e.d.y.toInt)

/-- R107, R108, R137: drawScanline starts from the cleared slot and the sentinel depths, and draws each polygon of the list on
what those before it left; and with COUNT = 0 the engine step leaves the slot cleared and every depth the sentinel, whatever
they held. -/
def Obligations.EmptyListClearsLine : Prop :=
  (∀ (p : Params) (line : Byte),
    drawScanline p line [] = LineBuf.cleared ∧
    (∀ x : Fin 256, LineBuf.cleared.pixels[x] = 0x0000 ∧ (LineBuf.cleared.depths[x]).toInt = 2 ^ 31 - 1) ∧
    ∀ (polys : List Polygon) (poly : Polygon),
      drawScanline p line (polys ++ [poly]) = drawPolygon p line.toNat (drawScanline p line polys) poly) ∧
  ∀ s : State, s.engineDue = true → s.taint = false → s.polyCount = 0 →
    ∃ t, step s = .next t ∧ ∀ x : Fin 256, t.lc[slotOf s.pendLine][x] = 0x0000 ∧ (t.zbuf[x]).toInt = 2 ^ 31 - 1

/-- R38: in a drawn line every pixel is either cleared, with bit 15 = 0 and the depth still the sentinel, or touched, with
bit 15 = 1. -/
def Obligations.DrawnPixelsClearedOrOpaque : Prop :=
  ∀ (p : Params) (line : Byte) (polys : List Polygon) (x : Fin 256),
    ((drawScanline p line polys).pixels[x] = 0x0000 ∧ ((drawScanline p line polys).depths[x]).toInt = 2 ^ 31 - 1) ∨
    (drawScanline p line polys).pixels[x].getLsbD 15 = true

/-- Derived (R128, R130): along one drawScanline no pixel's depth ever increases. -/
def Obligations.DepthNeverIncreases : Prop :=
  ∀ (p : Params) (line : Byte) (polys more : List Polygon) (x : Fin 256),
    ((drawScanline p line (polys ++ more)).depths[x]).toInt ≤ ((drawScanline p line polys).depths[x]).toInt

/-- Derived (R108, R128, R131): of two polygons of either kind that cover a pixel at one depth, drawn one after the other as the
last of the list, the later one's color is what the pixel holds. -/
def Obligations.DepthTieGoesToLater : Prop :=
  ∀ (p : Params) (line : Byte) (polys : List Polygon) (first later : Polygon) (su sv : Span) (x : Fin 256),
    let L : Int := line.toNat
    let u := first.edges p L
    let v := later.edges p L
    first.outside p L = false → later.outside p L = false →
    spanOf p.interpArith L u = some su → spanOf p.interpArith L v = some sv →
    su.lx0 ≤ x.val → (x.val : Int) ≤ su.lx1 → sv.lx0 ≤ x.val → (x.val : Int) ≤ sv.lx1 →
    pixelDepth p.interpArith L u su x = pixelDepth p.interpArith L v sv x →
    pixelDepth p.interpArith L u su x ≤ ((drawScanline p line polys).depths[x]).toInt →
    (drawScanline p line (polys ++ [first, later])).pixels[x] = pixelColor p.interpArith L v sv x
end

