-- ==== Sys2Proof/Laws/State.lean ====
section
/-! SUPPORT. What every named update of State leaves in every field, so that no later proof unfolds a record update. -/

namespace Sys2Proof.Machine

/-! ## STATUS -/

@[simp] theorem Status.record_illegalCommand_busy (f : Status) : (f.record .illegalCommand).busy = f.busy := rfl
@[simp] theorem Status.record_illegalCommand_lwValid (f : Status) : (f.record .illegalCommand).lwValid = f.lwValid := rfl
@[simp] theorem Status.record_illegalCommand_illcmd (f : Status) : (f.record .illegalCommand).illcmd = true := rfl
@[simp] theorem Status.record_illegalCommand_cmdovf (f : Status) : (f.record .illegalCommand).cmdovf = f.cmdovf := rfl
@[simp] theorem Status.record_illegalCommand_buserr (f : Status) : (f.record .illegalCommand).buserr = f.buserr := rfl
@[simp] theorem Status.record_commandOverrun_busy (f : Status) : (f.record .commandOverrun).busy = f.busy := rfl
@[simp] theorem Status.record_commandOverrun_lwValid (f : Status) : (f.record .commandOverrun).lwValid = f.lwValid := rfl
@[simp] theorem Status.record_commandOverrun_illcmd (f : Status) : (f.record .commandOverrun).illcmd = f.illcmd := rfl
@[simp] theorem Status.record_commandOverrun_cmdovf (f : Status) : (f.record .commandOverrun).cmdovf = true := rfl
@[simp] theorem Status.record_commandOverrun_buserr (f : Status) : (f.record .commandOverrun).buserr = f.buserr := rfl
@[simp] theorem Status.record_busError_busy (f : Status) : (f.record .busError).busy = f.busy := rfl
@[simp] theorem Status.record_busError_lwValid (f : Status) : (f.record .busError).lwValid = f.lwValid := rfl
@[simp] theorem Status.record_busError_illcmd (f : Status) : (f.record .busError).illcmd = f.illcmd := rfl
@[simp] theorem Status.record_busError_cmdovf (f : Status) : (f.record .busError).cmdovf = f.cmdovf := rfl
@[simp] theorem Status.record_busError_buserr (f : Status) : (f.record .busError).buserr = true := rfl
@[simp] theorem Status.clear_busy (v : Word) (f : Status) : (f.clear v).busy = f.busy := rfl
@[simp] theorem Status.clear_lwValid (v : Word) (f : Status) : (f.clear v).lwValid = f.lwValid := rfl
@[simp] theorem Status.clear_illcmd (v : Word) (f : Status) : (f.clear v).illcmd = (f.illcmd && !v.getLsbD 8) := rfl
@[simp] theorem Status.clear_cmdovf (v : Word) (f : Status) : (f.clear v).cmdovf = (f.cmdovf && !v.getLsbD 9) := rfl
@[simp] theorem Status.clear_buserr (v : Word) (f : Status) : (f.clear v).buserr = (f.buserr && !v.getLsbD 10) := rfl
@[simp] theorem Status.accepted_busy (f : Status) : f.accepted.busy = true := rfl
@[simp] theorem Status.accepted_lwValid (f : Status) : f.accepted.lwValid = f.lwValid := rfl
@[simp] theorem Status.accepted_illcmd (f : Status) : f.accepted.illcmd = f.illcmd := rfl
@[simp] theorem Status.accepted_cmdovf (f : Status) : f.accepted.cmdovf = f.cmdovf := rfl
@[simp] theorem Status.accepted_buserr (f : Status) : f.accepted.buserr = f.buserr := rfl
@[simp] theorem Status.completed_busy (f : Status) : f.completed.busy = false := rfl
@[simp] theorem Status.completed_lwValid (f : Status) : f.completed.lwValid = true := rfl
@[simp] theorem Status.completed_illcmd (f : Status) : f.completed.illcmd = f.illcmd := rfl
@[simp] theorem Status.completed_cmdovf (f : Status) : f.completed.cmdovf = f.cmdovf := rfl
@[simp] theorem Status.completed_buserr (f : Status) : f.completed.buserr = f.buserr := rfl

/-- No error touches BUSY. -/
@[simp] theorem Status.record_busy (e : HostError) (f : Status) : (f.record e).busy = f.busy := by
  cases e <;> rfl

/-- No error touches LW_VALID. -/
@[simp] theorem Status.record_lwValid (e : HostError) (f : Status) : (f.record e).lwValid = f.lwValid := by
  cases e <;> rfl

/-! ## raise -/

@[simp] theorem State.raise_params (e : HostError) (s : State) : (s.raise e).params = s.params := rfl
@[simp] theorem State.raise_status (e : HostError) (s : State) : (s.raise e).status = s.status.record e := rfl
@[simp] theorem State.raise_polyCount (e : HostError) (s : State) : (s.raise e).polyCount = s.polyCount := rfl
@[simp] theorem State.raise_lastWritten (e : HostError) (s : State) : (s.raise e).lastWritten = s.lastWritten := rfl
@[simp] theorem State.raise_lastConsumed (e : HostError) (s : State) : (s.raise e).lastConsumed = s.lastConsumed := rfl
@[simp] theorem State.raise_pendLine (e : HostError) (s : State) : (s.raise e).pendLine = s.pendLine := rfl
@[simp] theorem State.raise_taint (e : HostError) (s : State) : (s.raise e).taint = s.taint := rfl
@[simp] theorem State.raise_pram (e : HostError) (s : State) : (s.raise e).pram = s.pram := rfl
@[simp] theorem State.raise_zbuf (e : HostError) (s : State) : (s.raise e).zbuf = s.zbuf := rfl
@[simp] theorem State.raise_lc (e : HostError) (s : State) : (s.raise e).lc = s.lc := rfl
@[simp] theorem State.raise_pramDraw (e : HostError) (s : State) : (s.raise e).pramDraw = s.pramDraw := rfl
@[simp] theorem State.raise_port (e : HostError) (s : State) : (s.raise e).port = s.port := rfl
@[simp] theorem State.raise_replies (e : HostError) (s : State) : (s.raise e).replies = s.replies := rfl
@[simp] theorem State.raise_engineWait (e : HostError) (s : State) : (s.raise e).engineWait = s.engineWait := rfl
@[simp] theorem State.raise_draws (e : HostError) (s : State) : (s.raise e).draws = s.draws := rfl

/-! ## clearErrors -/

@[simp] theorem State.clearErrors_params (v : Word) (s : State) : (s.clearErrors v).params = s.params := rfl
@[simp] theorem State.clearErrors_status (v : Word) (s : State) : (s.clearErrors v).status = s.status.clear v := rfl
@[simp] theorem State.clearErrors_polyCount (v : Word) (s : State) : (s.clearErrors v).polyCount = s.polyCount := rfl
@[simp] theorem State.clearErrors_lastWritten (v : Word) (s : State) :
    (s.clearErrors v).lastWritten = s.lastWritten := rfl
@[simp] theorem State.clearErrors_lastConsumed (v : Word) (s : State) :
    (s.clearErrors v).lastConsumed = s.lastConsumed := rfl
@[simp] theorem State.clearErrors_pendLine (v : Word) (s : State) : (s.clearErrors v).pendLine = s.pendLine := rfl
@[simp] theorem State.clearErrors_taint (v : Word) (s : State) : (s.clearErrors v).taint = s.taint := rfl
@[simp] theorem State.clearErrors_pram (v : Word) (s : State) : (s.clearErrors v).pram = s.pram := rfl
@[simp] theorem State.clearErrors_zbuf (v : Word) (s : State) : (s.clearErrors v).zbuf = s.zbuf := rfl
@[simp] theorem State.clearErrors_lc (v : Word) (s : State) : (s.clearErrors v).lc = s.lc := rfl
@[simp] theorem State.clearErrors_pramDraw (v : Word) (s : State) : (s.clearErrors v).pramDraw = s.pramDraw := rfl
@[simp] theorem State.clearErrors_port (v : Word) (s : State) : (s.clearErrors v).port = s.port := rfl
@[simp] theorem State.clearErrors_replies (v : Word) (s : State) : (s.clearErrors v).replies = s.replies := rfl
@[simp] theorem State.clearErrors_engineWait (v : Word) (s : State) :
    (s.clearErrors v).engineWait = s.engineWait := rfl
@[simp] theorem State.clearErrors_draws (v : Word) (s : State) : (s.clearErrors v).draws = s.draws := rfl

/-! ## taintIfBusy -/

@[simp] theorem State.taintIfBusy_params (s : State) : s.taintIfBusy.params = s.params := rfl
@[simp] theorem State.taintIfBusy_status (s : State) : s.taintIfBusy.status = s.status := rfl
@[simp] theorem State.taintIfBusy_polyCount (s : State) : s.taintIfBusy.polyCount = s.polyCount := rfl
@[simp] theorem State.taintIfBusy_lastWritten (s : State) : s.taintIfBusy.lastWritten = s.lastWritten := rfl
@[simp] theorem State.taintIfBusy_lastConsumed (s : State) : s.taintIfBusy.lastConsumed = s.lastConsumed := rfl
@[simp] theorem State.taintIfBusy_pendLine (s : State) : s.taintIfBusy.pendLine = s.pendLine := rfl
@[simp] theorem State.taintIfBusy_taint (s : State) : s.taintIfBusy.taint = (s.taint || s.status.busy) := rfl
@[simp] theorem State.taintIfBusy_pram (s : State) : s.taintIfBusy.pram = s.pram := rfl
@[simp] theorem State.taintIfBusy_zbuf (s : State) : s.taintIfBusy.zbuf = s.zbuf := rfl
@[simp] theorem State.taintIfBusy_lc (s : State) : s.taintIfBusy.lc = s.lc := rfl
@[simp] theorem State.taintIfBusy_pramDraw (s : State) : s.taintIfBusy.pramDraw = s.pramDraw := rfl
@[simp] theorem State.taintIfBusy_port (s : State) : s.taintIfBusy.port = s.port := rfl
@[simp] theorem State.taintIfBusy_replies (s : State) : s.taintIfBusy.replies = s.replies := rfl
@[simp] theorem State.taintIfBusy_engineWait (s : State) : s.taintIfBusy.engineWait = s.engineWait := rfl
@[simp] theorem State.taintIfBusy_draws (s : State) : s.taintIfBusy.draws = s.draws := rfl

/-! ## writePram -/

@[simp] theorem State.writePram_params (a : Nat) (v : Word) (s : State) : (s.writePram a v).params = s.params := rfl
@[simp] theorem State.writePram_status (a : Nat) (v : Word) (s : State) : (s.writePram a v).status = s.status := rfl
@[simp] theorem State.writePram_polyCount (a : Nat) (v : Word) (s : State) :
    (s.writePram a v).polyCount = s.polyCount := rfl
@[simp] theorem State.writePram_lastWritten (a : Nat) (v : Word) (s : State) :
    (s.writePram a v).lastWritten = s.lastWritten := rfl
@[simp] theorem State.writePram_lastConsumed (a : Nat) (v : Word) (s : State) :
    (s.writePram a v).lastConsumed = s.lastConsumed := rfl
@[simp] theorem State.writePram_pendLine (a : Nat) (v : Word) (s : State) :
    (s.writePram a v).pendLine = s.pendLine := rfl
@[simp] theorem State.writePram_taint (a : Nat) (v : Word) (s : State) :
    (s.writePram a v).taint = (s.taint || s.status.busy) := rfl
@[simp] theorem State.writePram_pram (a : Nat) (v : Word) (s : State) :
    (s.writePram a v).pram = Memory.writeWord a v s.pram := rfl
@[simp] theorem State.writePram_zbuf (a : Nat) (v : Word) (s : State) : (s.writePram a v).zbuf = s.zbuf := rfl
@[simp] theorem State.writePram_lc (a : Nat) (v : Word) (s : State) : (s.writePram a v).lc = s.lc := rfl
@[simp] theorem State.writePram_pramDraw (a : Nat) (v : Word) (s : State) :
    (s.writePram a v).pramDraw = s.pramDraw := rfl
@[simp] theorem State.writePram_port (a : Nat) (v : Word) (s : State) : (s.writePram a v).port = s.port := rfl
@[simp] theorem State.writePram_replies (a : Nat) (v : Word) (s : State) : (s.writePram a v).replies = s.replies := rfl
@[simp] theorem State.writePram_engineWait (a : Nat) (v : Word) (s : State) :
    (s.writePram a v).engineWait = s.engineWait := rfl
@[simp] theorem State.writePram_draws (a : Nat) (v : Word) (s : State) : (s.writePram a v).draws = s.draws := rfl

/-! ## reply -/

@[simp] theorem State.reply_params (v : Word) (s : State) : (s.reply v).params = s.params := rfl
@[simp] theorem State.reply_status (v : Word) (s : State) : (s.reply v).status = s.status := rfl
@[simp] theorem State.reply_polyCount (v : Word) (s : State) : (s.reply v).polyCount = s.polyCount := rfl
@[simp] theorem State.reply_lastWritten (v : Word) (s : State) : (s.reply v).lastWritten = s.lastWritten := rfl
@[simp] theorem State.reply_lastConsumed (v : Word) (s : State) : (s.reply v).lastConsumed = s.lastConsumed := rfl
@[simp] theorem State.reply_pendLine (v : Word) (s : State) : (s.reply v).pendLine = s.pendLine := rfl
@[simp] theorem State.reply_taint (v : Word) (s : State) : (s.reply v).taint = s.taint := rfl
@[simp] theorem State.reply_pram (v : Word) (s : State) : (s.reply v).pram = s.pram := rfl
@[simp] theorem State.reply_zbuf (v : Word) (s : State) : (s.reply v).zbuf = s.zbuf := rfl
@[simp] theorem State.reply_lc (v : Word) (s : State) : (s.reply v).lc = s.lc := rfl
@[simp] theorem State.reply_pramDraw (v : Word) (s : State) : (s.reply v).pramDraw = s.pramDraw := rfl
@[simp] theorem State.reply_port (v : Word) (s : State) : (s.reply v).port = s.port := rfl
@[simp] theorem State.reply_replies (v : Word) (s : State) : (s.reply v).replies = v :: s.replies := rfl
@[simp] theorem State.reply_engineWait (v : Word) (s : State) : (s.reply v).engineWait = s.engineWait := rfl
@[simp] theorem State.reply_draws (v : Word) (s : State) : (s.reply v).draws = s.draws := rfl

/-! ## takeEvent -/

@[simp] theorem State.takeEvent_params (rest : List PortEvent) (s : State) :
    (s.takeEvent rest).params = s.params := rfl
@[simp] theorem State.takeEvent_status (rest : List PortEvent) (s : State) :
    (s.takeEvent rest).status = s.status := rfl
@[simp] theorem State.takeEvent_polyCount (rest : List PortEvent) (s : State) :
    (s.takeEvent rest).polyCount = s.polyCount := rfl
@[simp] theorem State.takeEvent_lastWritten (rest : List PortEvent) (s : State) :
    (s.takeEvent rest).lastWritten = s.lastWritten := rfl
@[simp] theorem State.takeEvent_lastConsumed (rest : List PortEvent) (s : State) :
    (s.takeEvent rest).lastConsumed = s.lastConsumed := rfl
@[simp] theorem State.takeEvent_pendLine (rest : List PortEvent) (s : State) :
    (s.takeEvent rest).pendLine = s.pendLine := rfl
@[simp] theorem State.takeEvent_taint (rest : List PortEvent) (s : State) : (s.takeEvent rest).taint = s.taint := rfl
@[simp] theorem State.takeEvent_pram (rest : List PortEvent) (s : State) : (s.takeEvent rest).pram = s.pram := rfl
@[simp] theorem State.takeEvent_zbuf (rest : List PortEvent) (s : State) : (s.takeEvent rest).zbuf = s.zbuf := rfl
@[simp] theorem State.takeEvent_lc (rest : List PortEvent) (s : State) : (s.takeEvent rest).lc = s.lc := rfl
@[simp] theorem State.takeEvent_pramDraw (rest : List PortEvent) (s : State) :
    (s.takeEvent rest).pramDraw = s.pramDraw := rfl
@[simp] theorem State.takeEvent_port (rest : List PortEvent) (s : State) : (s.takeEvent rest).port = rest := rfl
@[simp] theorem State.takeEvent_replies (rest : List PortEvent) (s : State) :
    (s.takeEvent rest).replies = s.replies := rfl
@[simp] theorem State.takeEvent_engineWait (rest : List PortEvent) (s : State) :
    (s.takeEvent rest).engineWait = s.engineWait - 1 := rfl
@[simp] theorem State.takeEvent_draws (rest : List PortEvent) (s : State) : (s.takeEvent rest).draws = s.draws := rfl

/-! ## accept -/

@[simp] theorem State.accept_params (line : Byte) (s : State) : (s.accept line).params = s.params := rfl
@[simp] theorem State.accept_status (line : Byte) (s : State) : (s.accept line).status = s.status.accepted := rfl
@[simp] theorem State.accept_polyCount (line : Byte) (s : State) : (s.accept line).polyCount = s.polyCount := rfl
@[simp] theorem State.accept_lastWritten (line : Byte) (s : State) : (s.accept line).lastWritten = s.lastWritten := rfl
@[simp] theorem State.accept_lastConsumed (line : Byte) (s : State) :
    (s.accept line).lastConsumed = s.lastConsumed := rfl
@[simp] theorem State.accept_pendLine (line : Byte) (s : State) : (s.accept line).pendLine = line := rfl
@[simp] theorem State.accept_taint (line : Byte) (s : State) : (s.accept line).taint = false := rfl
@[simp] theorem State.accept_pram (line : Byte) (s : State) : (s.accept line).pram = s.pram := rfl
@[simp] theorem State.accept_zbuf (line : Byte) (s : State) : (s.accept line).zbuf = s.zbuf := rfl
@[simp] theorem State.accept_lc (line : Byte) (s : State) : (s.accept line).lc = s.lc := rfl
@[simp] theorem State.accept_pramDraw (line : Byte) (s : State) : (s.accept line).pramDraw = s.pramDraw := rfl
@[simp] theorem State.accept_port (line : Byte) (s : State) : (s.accept line).port = s.port := rfl
@[simp] theorem State.accept_replies (line : Byte) (s : State) : (s.accept line).replies = s.replies := rfl
@[simp] theorem State.accept_engineWait (line : Byte) (s : State) :
    (s.accept line).engineWait = Config.engineDelay s.draws := rfl
@[simp] theorem State.accept_draws (line : Byte) (s : State) : (s.accept line).draws = s.draws + 1 := rfl

/-! ## complete -/

@[simp] theorem State.complete_params (s : State) : s.complete.params = s.params := rfl
@[simp] theorem State.complete_status (s : State) : s.complete.status = s.status.completed := rfl
@[simp] theorem State.complete_polyCount (s : State) : s.complete.polyCount = s.polyCount := rfl
@[simp] theorem State.complete_lastWritten (s : State) : s.complete.lastWritten = lastWrittenOf s.pendLine := rfl
@[simp] theorem State.complete_lastConsumed (s : State) : s.complete.lastConsumed = s.lastConsumed := rfl
@[simp] theorem State.complete_pendLine (s : State) : s.complete.pendLine = s.pendLine := rfl
@[simp] theorem State.complete_taint (s : State) : s.complete.taint = s.taint := rfl
@[simp] theorem State.complete_pram (s : State) : s.complete.pram = s.pram := rfl
@[simp] theorem State.complete_zbuf (s : State) : s.complete.zbuf = s.zbuf := rfl
@[simp] theorem State.complete_lc (s : State) : s.complete.lc = s.lc := rfl
@[simp] theorem State.complete_pramDraw (s : State) : s.complete.pramDraw = s.pramDraw := rfl
@[simp] theorem State.complete_port (s : State) : s.complete.port = s.port := rfl
@[simp] theorem State.complete_replies (s : State) : s.complete.replies = s.replies := rfl
@[simp] theorem State.complete_engineWait (s : State) : s.complete.engineWait = s.engineWait := rfl
@[simp] theorem State.complete_draws (s : State) : s.complete.draws = s.draws := rfl

/-! ## storeLine -/

@[simp] theorem State.storeLine_params (buf : LineBuf) (s : State) : (s.storeLine buf).params = s.params := rfl
@[simp] theorem State.storeLine_status (buf : LineBuf) (s : State) : (s.storeLine buf).status = s.status := rfl
@[simp] theorem State.storeLine_polyCount (buf : LineBuf) (s : State) :
    (s.storeLine buf).polyCount = s.polyCount := rfl
@[simp] theorem State.storeLine_lastWritten (buf : LineBuf) (s : State) :
    (s.storeLine buf).lastWritten = s.lastWritten := rfl
@[simp] theorem State.storeLine_lastConsumed (buf : LineBuf) (s : State) :
    (s.storeLine buf).lastConsumed = s.lastConsumed := rfl
@[simp] theorem State.storeLine_pendLine (buf : LineBuf) (s : State) : (s.storeLine buf).pendLine = s.pendLine := rfl
@[simp] theorem State.storeLine_taint (buf : LineBuf) (s : State) : (s.storeLine buf).taint = s.taint := rfl
@[simp] theorem State.storeLine_pram (buf : LineBuf) (s : State) : (s.storeLine buf).pram = s.pram := rfl
@[simp] theorem State.storeLine_zbuf (buf : LineBuf) (s : State) : (s.storeLine buf).zbuf = buf.depths := rfl
@[simp] theorem State.storeLine_lc (buf : LineBuf) (s : State) :
    (s.storeLine buf).lc = s.lc.set (slotOf s.pendLine) buf.pixels := rfl
@[simp] theorem State.storeLine_pramDraw (buf : LineBuf) (s : State) : (s.storeLine buf).pramDraw = s.pramDraw := rfl
@[simp] theorem State.storeLine_port (buf : LineBuf) (s : State) : (s.storeLine buf).port = s.port := rfl
@[simp] theorem State.storeLine_replies (buf : LineBuf) (s : State) : (s.storeLine buf).replies = s.replies := rfl
@[simp] theorem State.storeLine_engineWait (buf : LineBuf) (s : State) :
    (s.storeLine buf).engineWait = s.engineWait := rfl
@[simp] theorem State.storeLine_draws (buf : LineBuf) (s : State) : (s.storeLine buf).draws = s.draws := rfl

/-! ## engineStep -/

@[simp] theorem State.engineStep_params (s : State) : s.engineStep.params = s.params := rfl
@[simp] theorem State.engineStep_status (s : State) : s.engineStep.status = s.status.completed := rfl
@[simp] theorem State.engineStep_polyCount (s : State) : s.engineStep.polyCount = s.polyCount := rfl
@[simp] theorem State.engineStep_lastWritten (s : State) : s.engineStep.lastWritten = lastWrittenOf s.pendLine := rfl
@[simp] theorem State.engineStep_lastConsumed (s : State) : s.engineStep.lastConsumed = s.lastConsumed := rfl
@[simp] theorem State.engineStep_pendLine (s : State) : s.engineStep.pendLine = s.pendLine := rfl
@[simp] theorem State.engineStep_taint (s : State) : s.engineStep.taint = s.taint := rfl
@[simp] theorem State.engineStep_pram (s : State) : s.engineStep.pram = s.pram := rfl
@[simp] theorem State.engineStep_zbuf (s : State) : s.engineStep.zbuf = s.drawnLine.depths := rfl
@[simp] theorem State.engineStep_lc (s : State) :
    s.engineStep.lc = s.lc.set (slotOf s.pendLine) s.drawnLine.pixels := rfl
@[simp] theorem State.engineStep_pramDraw (s : State) : s.engineStep.pramDraw = s.pramDraw := rfl
@[simp] theorem State.engineStep_port (s : State) : s.engineStep.port = s.port := rfl
@[simp] theorem State.engineStep_replies (s : State) : s.engineStep.replies = s.replies := rfl
@[simp] theorem State.engineStep_engineWait (s : State) : s.engineStep.engineWait = s.engineWait := rfl
@[simp] theorem State.engineStep_draws (s : State) :
    s.engineStep.draws = if s.taint then s.draws + 1 else s.draws := rfl

/-! ## writePolyCount -/

@[simp] theorem State.writePolyCount_params (v : Word) (s : State) : (s.writePolyCount v).params = s.params := rfl
@[simp] theorem State.writePolyCount_status (v : Word) (s : State) : (s.writePolyCount v).status = s.status := rfl
@[simp] theorem State.writePolyCount_polyCount (v : Word) (s : State) :
    (s.writePolyCount v).polyCount = BitVec.ofNat 12 (min v.toNat s.params.maxPolys) := rfl
@[simp] theorem State.writePolyCount_lastWritten (v : Word) (s : State) :
    (s.writePolyCount v).lastWritten = s.lastWritten := rfl
@[simp] theorem State.writePolyCount_lastConsumed (v : Word) (s : State) :
    (s.writePolyCount v).lastConsumed = s.lastConsumed := rfl
@[simp] theorem State.writePolyCount_pendLine (v : Word) (s : State) :
    (s.writePolyCount v).pendLine = s.pendLine := rfl
@[simp] theorem State.writePolyCount_taint (v : Word) (s : State) :
    (s.writePolyCount v).taint = (s.taint || s.status.busy) := rfl
@[simp] theorem State.writePolyCount_pram (v : Word) (s : State) : (s.writePolyCount v).pram = s.pram := rfl
@[simp] theorem State.writePolyCount_zbuf (v : Word) (s : State) : (s.writePolyCount v).zbuf = s.zbuf := rfl
@[simp] theorem State.writePolyCount_lc (v : Word) (s : State) : (s.writePolyCount v).lc = s.lc := rfl
@[simp] theorem State.writePolyCount_pramDraw (v : Word) (s : State) :
    (s.writePolyCount v).pramDraw = s.pramDraw := rfl
@[simp] theorem State.writePolyCount_port (v : Word) (s : State) : (s.writePolyCount v).port = s.port := rfl
@[simp] theorem State.writePolyCount_replies (v : Word) (s : State) : (s.writePolyCount v).replies = s.replies := rfl
@[simp] theorem State.writePolyCount_engineWait (v : Word) (s : State) :
    (s.writePolyCount v).engineWait = s.engineWait := rfl
@[simp] theorem State.writePolyCount_draws (v : Word) (s : State) : (s.writePolyCount v).draws = s.draws := rfl

/-! ## writeLastConsumed -/

@[simp] theorem State.writeLastConsumed_params (v : Word) (s : State) :
    (s.writeLastConsumed v).params = s.params := rfl
@[simp] theorem State.writeLastConsumed_status (v : Word) (s : State) :
    (s.writeLastConsumed v).status = s.status := rfl
@[simp] theorem State.writeLastConsumed_polyCount (v : Word) (s : State) :
    (s.writeLastConsumed v).polyCount = s.polyCount := rfl
@[simp] theorem State.writeLastConsumed_lastWritten (v : Word) (s : State) :
    (s.writeLastConsumed v).lastWritten = s.lastWritten := rfl
@[simp] theorem State.writeLastConsumed_lastConsumed (v : Word) (s : State) :
    (s.writeLastConsumed v).lastConsumed = v.extractLsb' 0 8 := rfl
@[simp] theorem State.writeLastConsumed_pendLine (v : Word) (s : State) :
    (s.writeLastConsumed v).pendLine = s.pendLine := rfl
@[simp] theorem State.writeLastConsumed_taint (v : Word) (s : State) : (s.writeLastConsumed v).taint = s.taint := rfl
@[simp] theorem State.writeLastConsumed_pram (v : Word) (s : State) : (s.writeLastConsumed v).pram = s.pram := rfl
@[simp] theorem State.writeLastConsumed_zbuf (v : Word) (s : State) : (s.writeLastConsumed v).zbuf = s.zbuf := rfl
@[simp] theorem State.writeLastConsumed_lc (v : Word) (s : State) : (s.writeLastConsumed v).lc = s.lc := rfl
@[simp] theorem State.writeLastConsumed_pramDraw (v : Word) (s : State) :
    (s.writeLastConsumed v).pramDraw = s.pramDraw := rfl
@[simp] theorem State.writeLastConsumed_port (v : Word) (s : State) : (s.writeLastConsumed v).port = s.port := rfl
@[simp] theorem State.writeLastConsumed_replies (v : Word) (s : State) :
    (s.writeLastConsumed v).replies = s.replies := rfl
@[simp] theorem State.writeLastConsumed_engineWait (v : Word) (s : State) :
    (s.writeLastConsumed v).engineWait = s.engineWait := rfl
@[simp] theorem State.writeLastConsumed_draws (v : Word) (s : State) : (s.writeLastConsumed v).draws = s.draws := rfl

/-! ## noteBusyRead -/

@[simp] theorem State.noteBusyRead_params (slot : Fin 48) (s : State) : (s.noteBusyRead slot).params = s.params := by
  unfold State.noteBusyRead; split <;> rfl
@[simp] theorem State.noteBusyRead_status (slot : Fin 48) (s : State) : (s.noteBusyRead slot).status = s.status := by
  unfold State.noteBusyRead; split <;> rfl
@[simp] theorem State.noteBusyRead_polyCount (slot : Fin 48) (s : State) : (s.noteBusyRead slot).polyCount = s.polyCount := by
  unfold State.noteBusyRead; split <;> rfl
@[simp] theorem State.noteBusyRead_lastWritten (slot : Fin 48) (s : State) : (s.noteBusyRead slot).lastWritten = s.lastWritten := by
  unfold State.noteBusyRead; split <;> rfl
@[simp] theorem State.noteBusyRead_lastConsumed (slot : Fin 48) (s : State) : (s.noteBusyRead slot).lastConsumed = s.lastConsumed := by
  unfold State.noteBusyRead; split <;> rfl
@[simp] theorem State.noteBusyRead_pendLine (slot : Fin 48) (s : State) : (s.noteBusyRead slot).pendLine = s.pendLine := by
  unfold State.noteBusyRead; split <;> rfl
@[simp] theorem State.noteBusyRead_taint (slot : Fin 48) (s : State) : (s.noteBusyRead slot).taint = s.taint := by
  unfold State.noteBusyRead; split <;> rfl
@[simp] theorem State.noteBusyRead_pram (slot : Fin 48) (s : State) : (s.noteBusyRead slot).pram = s.pram := by
  unfold State.noteBusyRead; split <;> rfl
@[simp] theorem State.noteBusyRead_zbuf (slot : Fin 48) (s : State) : (s.noteBusyRead slot).zbuf = s.zbuf := by
  unfold State.noteBusyRead; split <;> rfl
@[simp] theorem State.noteBusyRead_lc (slot : Fin 48) (s : State) : (s.noteBusyRead slot).lc = s.lc := by
  unfold State.noteBusyRead; split <;> rfl
@[simp] theorem State.noteBusyRead_pramDraw (slot : Fin 48) (s : State) : (s.noteBusyRead slot).pramDraw = s.pramDraw := by
  unfold State.noteBusyRead; split <;> rfl
@[simp] theorem State.noteBusyRead_port (slot : Fin 48) (s : State) : (s.noteBusyRead slot).port = s.port := by
  unfold State.noteBusyRead; split <;> rfl
@[simp] theorem State.noteBusyRead_replies (slot : Fin 48) (s : State) : (s.noteBusyRead slot).replies = s.replies := by
  unfold State.noteBusyRead; split <;> rfl
@[simp] theorem State.noteBusyRead_engineWait (slot : Fin 48) (s : State) : (s.noteBusyRead slot).engineWait = s.engineWait := by
  unfold State.noteBusyRead; split <;> rfl
@[simp] theorem State.noteBusyRead_draws (slot : Fin 48) (s : State) : (s.noteBusyRead slot).draws = if s.beingDrawn slot then s.draws + 1 else s.draws := by
  unfold State.noteBusyRead; split <;> rfl

/-! ## resetInput -/

@[simp] theorem State.resetInput_params (s : State) : s.resetInput.params = s.params := rfl
@[simp] theorem State.resetInput_status (s : State) :
    s.resetInput.status = (State.powerOn s.params s.draws).status := rfl
@[simp] theorem State.resetInput_polyCount (s : State) :
    s.resetInput.polyCount = (State.powerOn s.params s.draws).polyCount := rfl
@[simp] theorem State.resetInput_lastWritten (s : State) :
    s.resetInput.lastWritten = (State.powerOn s.params s.draws).lastWritten := rfl
@[simp] theorem State.resetInput_lastConsumed (s : State) :
    s.resetInput.lastConsumed = (State.powerOn s.params s.draws).lastConsumed := rfl
@[simp] theorem State.resetInput_pendLine (s : State) :
    s.resetInput.pendLine = (State.powerOn s.params s.draws).pendLine := rfl
@[simp] theorem State.resetInput_taint (s : State) : s.resetInput.taint = (State.powerOn s.params s.draws).taint := rfl
@[simp] theorem State.resetInput_pram (s : State) : s.resetInput.pram = (State.powerOn s.params s.draws).pram := rfl
@[simp] theorem State.resetInput_zbuf (s : State) : s.resetInput.zbuf = (State.powerOn s.params s.draws).zbuf := rfl
@[simp] theorem State.resetInput_lc (s : State) : s.resetInput.lc = (State.powerOn s.params s.draws).lc := rfl
@[simp] theorem State.resetInput_pramDraw (s : State) :
    s.resetInput.pramDraw = (State.powerOn s.params s.draws).pramDraw := rfl
@[simp] theorem State.resetInput_port (s : State) : s.resetInput.port = s.port := rfl
@[simp] theorem State.resetInput_replies (s : State) : s.resetInput.replies = s.replies := rfl
@[simp] theorem State.resetInput_engineWait (s : State) :
    s.resetInput.engineWait = (State.powerOn s.params s.draws).engineWait := rfl
@[simp] theorem State.resetInput_draws (s : State) : s.resetInput.draws = (State.powerOn s.params s.draws).draws := rfl

end Sys2Proof.Machine
end

