-- ==== Sys2Proof/Laws/Memory.lean ====
section
/-! SUPPORT. Memory: read after write, frames, canonical form, byte order, and the PRAM operations built on them. -/

namespace Sys2Proof.Machine

/-! ## Bytes of a word -/

@[simp] theorem wordOfBytes_byteOfWord (w : Word) :
    wordOfBytes (byteOfWord w 0) (byteOfWord w 1) (byteOfWord w 2) (byteOfWord w 3) = w := by
  apply BitVec.eq_of_getLsbD_eq
  intro i hi
  simp only [wordOfBytes, byteOfWord, BitVec.getLsbD_append, BitVec.getLsbD_extractLsb']
  by_cases h0 : i < 8
  · simp [h0]
  · by_cases h1 : i < 16
    · have : i - 8 < 8 := by omega
      have e : 8 + (i - 8) = i := by omega
      simp [h0, this, e]
    · by_cases h2 : i < 24
      · have a : ¬ i - 8 < 8 := by omega
        have b : i - 8 - 8 < 8 := by omega
        have e : 16 + (i - 8 - 8) = i := by omega
        simp [h0, a, b, e]
      · have a : ¬ i - 8 < 8 := by omega
        have b : ¬ i - 8 - 8 < 8 := by omega
        have c : i - 8 - 8 - 8 < 8 := by omega
        have e : 24 + (i - 8 - 8 - 8) = i := by omega
        simp [h0, a, b, c, e]

theorem byteOfWord_toNat (w : Word) (k : Nat) : (byteOfWord w k).toNat = w.toNat / 2 ^ (8 * k) % 2 ^ 8 := by
  simp [byteOfWord, Nat.shiftRight_eq_div_pow]

/-! ## One byte -/

theorem Memory.byte?_writeByte_same (a : Nat) (v : Byte) (m : Memory) :
    Memory.byte? a (Memory.writeByte a v m) = some v := by
  induction m with
  | nil => simp [Memory.writeByte, Memory.byte?]
  | cons c m ih =>
    obtain ⟨b, w⟩ := c
    simp only [Memory.writeByte]
    split
    · simp [Memory.byte?]
    · split
      · simp [Memory.byte?]
      · rename_i h; simp [Memory.byte?, h, ih]

theorem Memory.byte?_writeByte_other {a b : Nat} (h : b ≠ a) (v : Byte) (m : Memory) :
    Memory.byte? b (Memory.writeByte a v m) = Memory.byte? b m := by
  induction m with
  | nil => simp [Memory.writeByte, Memory.byte?, h]
  | cons c m ih =>
    obtain ⟨d, w⟩ := c
    simp only [Memory.writeByte]
    split
    · simp [Memory.byte?, h]
    · split
      · rename_i e; subst e; simp [Memory.byte?, h]
      · simp [Memory.byte?, ih]

/-- What a byte write lists: the byte written, and otherwise only what was listed. -/
theorem Memory.mem_writeByte {a : Nat} {v : Byte} {m : Memory} {c : Host.Cell} (h : c ∈ Memory.writeByte a v m) :
    c = (a, v) ∨ c ∈ m := by
  induction m with
  | nil => simpa [Memory.writeByte] using h
  | cons d m ih =>
    obtain ⟨b, w⟩ := d
    simp only [Memory.writeByte] at h
    split at h
    · simpa using h
    · split at h
      · simp only [List.mem_cons] at h ⊢
        tauto
      · simp only [List.mem_cons] at h ⊢
        rcases h with h | h
        · exact .inr (.inl h)
        · rcases ih h with h | h
          · exact .inl h
          · exact .inr (.inr h)

/-- A byte write keeps the canonical form. -/
theorem Memory.writeByte_wf (a : Nat) (v : Byte) {m : Memory} (h : Memory.wf m) : Memory.wf (Memory.writeByte a v m) := by
  induction m with
  | nil => simp [Memory.wf, Memory.writeByte]
  | cons d m ih =>
    obtain ⟨b, w⟩ := d
    simp only [Memory.wf, List.map_cons, List.pairwise_cons] at h
    simp only [Memory.writeByte]
    split
    · rename_i hab
      simp only [Memory.wf, List.map_cons, List.pairwise_cons, List.mem_cons, forall_eq_or_imp]
      exact ⟨⟨hab, fun x hx => lt_trans hab (h.1 x hx)⟩, h.1, h.2⟩
    · split
      · rename_i e; subst e
        simpa only [Memory.wf, List.map_cons, List.pairwise_cons] using h
      · rename_i h1 h2
        simp only [Memory.wf, List.map_cons, List.pairwise_cons]
        refine ⟨fun x hx => ?_, ih h.2⟩
        obtain ⟨c, hc, rfl⟩ := List.mem_map.mp hx
        rcases Memory.mem_writeByte hc with rfl | hc
        · show b < a; omega
        · exact h.1 _ (List.mem_map_of_mem hc)

/-! ## One word -/

/-- A word write keeps the canonical form. -/
theorem Memory.writeWord_wf (a : Nat) (v : Word) {m : Memory} (h : Memory.wf m) : Memory.wf (Memory.writeWord a v m) :=
  Memory.writeByte_wf _ _ (Memory.writeByte_wf _ _ (Memory.writeByte_wf _ _ (Memory.writeByte_wf _ _ h)))

theorem Memory.mem_writeWord {a : Nat} {v : Word} {m : Memory} {c : Host.Cell} (h : c ∈ Memory.writeWord a v m) :
    (a ≤ c.1 ∧ c.1 < a + 4) ∨ c ∈ m := by
  rcases Memory.mem_writeByte h with rfl | h
  · left; simp
  rcases Memory.mem_writeByte h with rfl | h
  · left; simp
  rcases Memory.mem_writeByte h with rfl | h
  · left; simp
  rcases Memory.mem_writeByte h with rfl | h
  · left; simp
  exact .inr h

theorem Memory.byte?_writeWord_other {a b : Nat} (h : b < a ∨ a + 4 ≤ b) (v : Word) (m : Memory) :
    Memory.byte? b (Memory.writeWord a v m) = Memory.byte? b m := by
  unfold Memory.writeWord
  rw [Memory.byte?_writeByte_other (by omega), Memory.byte?_writeByte_other (by omega),
    Memory.byte?_writeByte_other (by omega), Memory.byte?_writeByte_other (by omega)]

theorem Memory.byte?_writeWord_same (a k : Nat) (hk : k < 4) (v : Word) (m : Memory) :
    Memory.byte? (a + k) (Memory.writeWord a v m) = some (byteOfWord v k) := by
  unfold Memory.writeWord
  have : k = 0 ∨ k = 1 ∨ k = 2 ∨ k = 3 := by omega
  rcases this with rfl | rfl | rfl | rfl
  · exact Memory.byte?_writeByte_same _ _ _
  · rw [Memory.byte?_writeByte_other (by omega), Memory.byte?_writeByte_same]
  · rw [Memory.byte?_writeByte_other (by omega), Memory.byte?_writeByte_other (by omega), Memory.byte?_writeByte_same]
  · rw [Memory.byte?_writeByte_other (by omega), Memory.byte?_writeByte_other (by omega),
      Memory.byte?_writeByte_other (by omega), Memory.byte?_writeByte_same]

/-! ## PRAM -/

/-- A PRAM write sets byte `k` of its word to byte `k` of the value. -/
theorem State.pramByte_writePram_same (a k : Nat) (hk : k < 4) (v : Word) (s : State) :
    (s.writePram a v).pramByte (a + k) = byteOfWord v k := by
  simp [State.pramByte, Memory.byte?_writeWord_same a k hk]

/-- A PRAM write changes no byte outside its word. -/
theorem State.pramByte_writePram_other {a b : Nat} (h : b < a ∨ a + 4 ≤ b) (v : Word) (s : State) :
    (s.writePram a v).pramByte b = s.pramByte b := by
  simp [State.pramByte, Memory.byte?_writeWord_other h]

/-- A PRAM word reads back as written. -/
@[simp] theorem State.pramWord_writePram_same (a : Nat) (v : Word) (s : State) : (s.writePram a v).pramWord a = v := by
  have h0 := s.pramByte_writePram_same a 0 (by omega) v
  rw [Nat.add_zero] at h0
  rw [State.pramWord, h0, s.pramByte_writePram_same a 1 (by omega), s.pramByte_writePram_same a 2 (by omega),
    s.pramByte_writePram_same a 3 (by omega), wordOfBytes_byteOfWord]

/-- A PRAM write changes no other aligned word. -/
theorem State.pramWord_writePram_other {a b : Nat} (h : b + 4 ≤ a ∨ a + 4 ≤ b) (v : Word) (s : State) :
    (s.writePram a v).pramWord b = s.pramWord b := by
  simp only [State.pramWord]
  rw [State.pramByte_writePram_other (by omega), State.pramByte_writePram_other (by omega),
    State.pramByte_writePram_other (by omega), State.pramByte_writePram_other (by omega)]

/-- A PRAM word is a function of the written bytes and the draw alone. -/
theorem State.pramWord_congr {s t : State} (hp : t.pram = s.pram) (hd : t.pramDraw = s.pramDraw) (a : Nat) :
    t.pramWord a = s.pramWord a := by
  simp [State.pramWord, State.pramByte, hp, hd]

/-- A word of an entry, by its offset in the window (R48). -/
theorem State.entryWord_eq (i k : Nat) (s : State) : s.entryWord i k = s.pramWord (0x40000 + 128 * i + 4 * k) := rfl

/-- A vertex slot by its five words (R33). -/
theorem State.vertexSlot_eq (i j : Nat) (s : State) :
    s.vertexSlot i j =
      { x := s.entryWord i (1 + 5 * j), y := s.entryWord i (2 + 5 * j), z := s.entryWord i (3 + 5 * j),
        w := s.entryWord i (4 + 5 * j), color := (s.entryWord i (5 + 5 * j)).setWidth 16 } := by
  have h (w : Word) : w.extractLsb' 0 16 = w.setWidth 16 := by
    apply BitVec.eq_of_toNat_eq
    simp
  rw [← h]
  rfl

/-- An entry whose KIND is 0 is the triangle of slots 0 to 2 (R32, R35). -/
theorem State.polygon_triangle {i : Nat} {s : State} (h : (s.entryWord i 0).getLsbD 0 = false) :
    s.polygon i = .triangle #v[s.vertexSlot i 0, s.vertexSlot i 1, s.vertexSlot i 2] := by
  have hk : s.isQuad i = false := h
  unfold State.polygon
  rw [hk]
  rfl

/-- An entry whose KIND is 1 is the quad of slots 0 to 3 (R32, R35). -/
theorem State.polygon_quad {i : Nat} {s : State} (h : (s.entryWord i 0).getLsbD 0 = true) :
    s.polygon i = .quad #v[s.vertexSlot i 0, s.vertexSlot i 1, s.vertexSlot i 2, s.vertexSlot i 3] := by
  have hk : s.isQuad i = true := h
  unfold State.polygon
  rw [hk]
  rfl

/-- The polygons are a function of PRAM, its draw and COUNT alone. -/
theorem State.polygons_congr {s t : State} (hp : t.pram = s.pram) (hd : t.pramDraw = s.pramDraw)
    (hc : t.polyCount = s.polyCount) : t.polygons = s.polygons := by
  have hw := State.pramWord_congr hp hd
  simp [State.polygons, State.polygon, State.isQuad, State.vertexSlot, State.entryWord, hw, hc]

/-- Reset memory is in canonical form. -/
theorem reset_memory_wf : Memory.wf State.reset.pram := by
  simp [State.reset, State.powerOn, Memory.wf]

end Sys2Proof.Machine
end

