-- ==== Sys2Proof/Laws/Access.lean ====
section
/-! SUPPORT. The window: the bus address of an offset, and which accesses are performed where. -/

namespace Sys2Proof.Machine

/-- An address inside the window is an offset of it. -/
theorem offset?_base_add (p : Params) {a : Nat} (h : a < 2 ^ 19) :
    offset? p (p.windowBase + a) = some (BitVec.ofNat 19 a) := by
  simp [offset?, windowSize]
  omega

@[simp] theorem offset?_busAddr (p : Params) (off : Offset) : offset? p (busAddr p off) = some off := by
  rw [busAddr, offset?_base_add p off.isLt]
  simp

/-- An address that has an offset is the base plus that offset. -/
theorem offset?_eq_some {p : Params} {addr : Nat} {off : Offset} (h : offset? p addr = some off) :
    addr = p.windowBase + off.toNat := by
  unfold offset? windowSize at h
  split at h
  · rename_i hr
    rw [Option.some.injEq] at h
    subst h
    rw [BitVec.toNat_ofNat, Nat.mod_eq_of_lt (by omega)]
    omega
  · exact absurd h (by simp)

theorem toNat_ofNat_offset {a : Nat} (h : a < 2 ^ 19) : (BitVec.ofNat 19 a : Offset).toNat = a := by
  rw [BitVec.toNat_ofNat, Nat.mod_eq_of_lt h]

/-- Where a read is performed. -/
theorem readTarget_cases (p : Params) (off : Offset) (width : Nat) :
    (readTarget p off width = some .registers ∧ off.toNat < 0x18 ∧ width = 4 ∧ off.toNat % 4 = 0) ∨
    (readTarget p off width = some .lineCache ∧ 0x10000 ≤ off.toNat ∧ off.toNat < 0x16000 ∧
      (width = 2 ∨ width = 4) ∧ off.toNat % width = 0) ∨
    (readTarget p off width = some .pram ∧ 0x40000 ≤ off.toNat ∧ off.toNat < 0x40000 + 128 * p.maxPolys ∧
      width = 4 ∧ off.toNat % 4 = 0) ∨
    (readTarget p off width = none ∧ ¬ LegalRead p off.toNat width) := by
  unfold readTarget regionOf pramBase LegalRead LegalWordAccess
  split
  · simp only [Option.filter, legalRead, Bool.and_eq_true, beq_iff_eq]
    split
    · left; simp_all
    · right; right; right; refine ⟨rfl, ?_⟩; omega
  · split
    · simp only [Option.filter, legalRead, Bool.or_eq_true, Bool.and_eq_true, beq_iff_eq]
      split
      · rename_i h1 h2 h3
        right; left
        refine ⟨rfl, h2.1, h2.2, ?_⟩
        rcases h3 with ⟨rfl, h⟩ | ⟨rfl, h⟩ <;> simp [h]
      · rename_i h1 h2 h3
        right; right; right; refine ⟨rfl, ?_⟩
        rintro (⟨hw, hm, h⟩ | ⟨hw, hm, h⟩)
        · omega
        · rcases hw with rfl | rfl
          · exact h3 (.inl ⟨rfl, hm⟩)
          · exact h3 (.inr ⟨rfl, hm⟩)
    · split
      · simp only [Option.filter, legalRead, Bool.and_eq_true, beq_iff_eq]
        split
        · right; right; left; simp_all
        · right; right; right; refine ⟨rfl, ?_⟩; omega
      · right; right; right; refine ⟨rfl, ?_⟩; omega

/-- Where a write is performed. -/
theorem writeTarget_cases (p : Params) (off : Offset) (width : Nat) :
    (writeTarget p off width = some .registers ∧ off.toNat < 0x18 ∧ width = 4 ∧ off.toNat % 4 = 0) ∨
    (writeTarget p off width = some .pram ∧ 0x40000 ≤ off.toNat ∧ off.toNat < 0x40000 + 128 * p.maxPolys ∧
      width = 4 ∧ off.toNat % 4 = 0) ∨
    (writeTarget p off width = none ∧ ¬ LegalWordAccess p off.toNat width) := by
  unfold writeTarget regionOf pramBase LegalWordAccess
  split
  · simp only [Option.filter, legalWrite, Bool.and_eq_true, beq_iff_eq]
    split
    · left; simp_all
    · right; right; refine ⟨rfl, ?_⟩; omega
  · split
    · simp only [Option.filter, legalWrite]
      right; right; refine ⟨rfl, ?_⟩; omega
    · split
      · simp only [Option.filter, legalWrite, Bool.and_eq_true, beq_iff_eq]
        split
        · right; left; simp_all
        · right; right; refine ⟨rfl, ?_⟩; omega
      · right; right; refine ⟨rfl, ?_⟩; omega

end Sys2Proof.Machine
end

