-- ==== Sys2Proof/Laws/Binary32.lean ====
section
/-! SUPPORT. The parts of fl (spec/00_scope.md R11): the binary exponent, rounding half to even, and where the BINARY32
interpolation is its truncated sum. -/

namespace Sys2Proof.Machine

/-! ## Powers of two and the exponent -/

theorem pow2_eq_zpow (e : Int) : pow2 e = (2 : ℚ) ^ e := by
  cases e with
  | ofNat n => simp [pow2]
  | negSucc n =>
    simp only [pow2, zpow_negSucc]
    rw [Rat.mkRat_eq_div]
    push_cast
    rw [one_div]

theorem magnitude_eq_abs (q : ℚ) : magnitude q = |q| := by
  unfold magnitude
  split
  · rw [abs_of_neg ‹_›]
  · rw [abs_of_nonneg (not_lt.mp ‹_›)]

/-- The exponent places the magnitude between two powers of two. -/
theorem binaryExponent_bounds {q : ℚ} (h : q ≠ 0) :
    (2 : ℚ) ^ binaryExponent q ≤ |q| ∧ |q| < (2 : ℚ) ^ (binaryExponent q + 1) := by
  have hnum : q.num.natAbs ≠ 0 := by simpa using h
  have e : |q| = (q.num.natAbs : ℚ) / q.den := by
    conv_lhs => rw [← Rat.num_div_den q]
    rw [abs_div, Nat.abs_cast, Nat.cast_natAbs, Int.cast_abs]
  set a := Nat.log2 q.num.natAbs with ha
  set b := Nat.log2 q.den with hb
  have a1 : (2 : ℚ) ^ a ≤ (q.num.natAbs : ℚ) := by exact_mod_cast Nat.log2_self_le hnum
  have a2 : (q.num.natAbs : ℚ) < 2 ^ (a + 1) := by exact_mod_cast Nat.lt_log2_self (n := q.num.natAbs)
  have b1 : (2 : ℚ) ^ b ≤ q.den := by exact_mod_cast Nat.log2_self_le q.den_pos.ne'
  have b2 : (q.den : ℚ) ≤ (2 : ℚ) ^ (b + 1) := by exact_mod_cast (Nat.lt_log2_self (n := q.den)).le
  have hden : (0 : ℚ) < q.den := by exact_mod_cast q.den_pos
  have up : |q| < (2 : ℚ) ^ ((a : Int) - b + 1) := by
    rw [e, div_lt_iff₀ hden, show ((a : Int) - b + 1) = ((a + 1 : Nat) : Int) - (b : Nat) by push_cast; ring,
      zpow_sub₀ (by norm_num), zpow_natCast, zpow_natCast, div_mul_eq_mul_div, lt_div_iff₀ (by positivity)]
    nlinarith [mul_le_mul_of_nonneg_left b1 (by positivity : (0 : ℚ) ≤ q.num.natAbs)]
  have lo : (2 : ℚ) ^ ((a : Int) - b - 1) ≤ |q| := by
    rw [e, le_div_iff₀ hden, show ((a : Int) - b - 1) = (a : Nat) - ((b + 1 : Nat) : Int) by push_cast; ring,
      zpow_sub₀ (by norm_num), zpow_natCast, zpow_natCast, div_mul_eq_mul_div, div_le_iff₀ (by positivity)]
    nlinarith [mul_le_mul_of_nonneg_left b2 (by positivity : (0 : ℚ) ≤ 2 ^ a),
      mul_le_mul_of_nonneg_right a1 (by positivity : (0 : ℚ) ≤ 2 ^ (b + 1))]
  unfold binaryExponent
  dsimp only
  rw [pow2_eq_zpow, magnitude_eq_abs]
  split
  · exact ⟨‹_›, up⟩
  · exact ⟨lo, by rw [sub_add_cancel]; exact not_le.mp ‹_›⟩

/-! ## Rounding half to even -/

theorem abs_sub_roundHalfEven_le (q : ℚ) : |q - roundHalfEven q| ≤ 1 / 2 := by
  have h0 := Rat.floor_le (a := q)
  have h1 := Rat.lt_floor (x := q)
  unfold roundHalfEven
  dsimp only
  split_ifs <;> rw [abs_le] <;> push_cast <;> constructor <;> linarith

/-- Another integer lies at least 1 away from the rounded value, and that is at most the two distances together. -/
theorem one_le_abs_roundHalfEven_sub {q : ℚ} {n : Int} (h : n ≠ roundHalfEven q) :
    (1 : ℚ) ≤ |(roundHalfEven q : ℚ) - n| ∧ |(roundHalfEven q : ℚ) - n| ≤ |q - n| + |q - roundHalfEven q| := by
  constructor
  · have : (1 : Int) ≤ |roundHalfEven q - n| := Int.one_le_abs (by omega)
    exact_mod_cast this
  · have := abs_sub_le (roundHalfEven q : ℚ) q n
    rw [abs_sub_comm (roundHalfEven q : ℚ) q] at this
    linarith

/-- No integer is nearer. -/
theorem roundHalfEven_nearest (q : ℚ) (n : Int) : |q - roundHalfEven q| ≤ |q - n| := by
  by_cases h : n = roundHalfEven q
  · rw [h]
  · have h1 := abs_sub_roundHalfEven_le q
    have h2 := one_le_abs_roundHalfEven_sub h
    linarith

/-- Where another integer is as near, the rounded one is even and the two are neighbors. -/
theorem roundHalfEven_tie {q : ℚ} {n : Int} (hne : n ≠ roundHalfEven q) (h : |q - n| = |q - roundHalfEven q|) :
    roundHalfEven q % 2 = 0 ∧ |(roundHalfEven q : ℚ) - n| = 1 := by
  have h1 := abs_sub_roundHalfEven_le q
  have h2 := one_le_abs_roundHalfEven_sub hne
  have half : |q - roundHalfEven q| = 1 / 2 := by linarith
  have f0 := Rat.floor_le (a := q)
  have f1 := Rat.lt_floor (x := q)
  refine ⟨?_, by linarith⟩
  unfold roundHalfEven at half ⊢
  dsimp only at half ⊢
  split_ifs at half ⊢ with a b c
  · rw [abs_of_nonneg (by linarith)] at half
    linarith
  · push_cast at half
    rw [abs_of_nonpos (by linarith)] at half
    linarith
  · exact c
  · omega

/-! ## fl and the sum -/

@[simp] theorem fl_zero : fl 0 = 0 := by simp [fl]

/-- fl rounds the value in units of its last place. -/
theorem fl_eq {q : ℚ} (h : q ≠ 0) :
    fl q = (roundHalfEven (q / (2 : ℚ) ^ max (binaryExponent q - 23) (-149)) : ℚ) *
      (2 : ℚ) ^ max (binaryExponent q - 23) (-149) := by
  simp only [fl, h, if_false, pow2_eq_zpow]

/-- The BINARY32 interpolation is its truncated sum where that lies in int32 (R97). -/
theorem interpolateBinary32_of_mem {min max start current stop : Int} (h : start ≠ stop)
    (lo : -2 ^ 31 ≤ binary32Sum min max start current stop) (hi : binary32Sum min max start current stop ≤ 2 ^ 31 - 1) :
    interpolateBinary32 min max start current stop = trunc0 (binary32Sum min max start current stop) := by
  unfold interpolateBinary32
  dsimp only
  rw [if_neg h, if_neg (by rw [not_or, not_lt, not_lt]; exact ⟨lo, hi⟩)]

end Sys2Proof.Machine
end

