-- ==== Sys2Proof/Laws/Interpolate.lean ====
section
/-! SUPPORT. Truncation toward zero, and the exact interpolation as one truncating division of whole numbers. -/

namespace Sys2Proof.Machine

/-! ## trunc0 -/

/-- trunc0 of a fraction is the truncating division. -/
theorem trunc0_div (a b : Int) (hb : 0 < b) : trunc0 ((a : ℚ) / (b : ℚ)) = Int.tdiv a b := by
  set q : ℚ := (a : ℚ) / (b : ℚ) with hq
  have hbq : (b : ℚ) ≠ 0 := by exact_mod_cast hb.ne'
  have hden : (0 : Int) < q.den := by exact_mod_cast q.den_pos
  have e : q.num * b = a * q.den := by
    have h1 : (q.num : ℚ) / (q.den : ℚ) = (a : ℚ) / (b : ℚ) := by rw [Rat.num_div_den, hq]
    rw [div_eq_div_iff (by exact_mod_cast q.den_pos.ne') hbq] at h1
    exact_mod_cast h1
  show Int.tdiv q.num q.den = Int.tdiv a b
  rw [← Int.mul_tdiv_mul_of_pos_left q.num (q.den : Int) hb, e, mul_comm (q.den : Int) b,
    Int.mul_tdiv_mul_of_pos_left a b hden]

@[simp] theorem trunc0_intCast (n : Int) : trunc0 (n : ℚ) = n := by
  simp [trunc0]

/-- Below zero trunc0 rounds up, elsewhere down. -/
theorem trunc0_eq (q : ℚ) : trunc0 q = if q < 0 then ⌈q⌉ else ⌊q⌋ := by
  have hden : (0 : Int) < q.den := by exact_mod_cast q.den_pos
  split
  · rename_i h
    have hn : q.num < 0 := Rat.num_neg.mpr h
    have : trunc0 q = -Int.tdiv (-q.num) q.den := by simp [trunc0]
    rw [this, Int.tdiv_eq_ediv_of_nonneg (by omega), Rat.ceil_def']
  · rename_i h
    have hn : 0 ≤ q.num := Rat.num_nonneg.mpr (not_lt.mp h)
    rw [trunc0, Int.tdiv_eq_ediv_of_nonneg hn, Rat.floor_def']

/-- trunc0 never decreases. -/
theorem trunc0_mono {q r : ℚ} (h : q ≤ r) : trunc0 q ≤ trunc0 r := by
  rw [trunc0_eq, trunc0_eq]
  split <;> split
  · exact Int.ceil_mono h
  · rename_i hq hr
    exact (Int.ceil_le.mpr (by exact_mod_cast hq.le)).trans (Int.floor_nonneg.mpr (not_lt.mp hr))
  · rename_i hq hr
    exact absurd (h.trans_lt hr) hq
  · exact Int.floor_mono h

theorem trunc0_le_of_le_intCast {q : ℚ} {n : Int} (h : q ≤ n) : trunc0 q ≤ n := by
  simpa using trunc0_mono h

theorem le_trunc0_of_intCast_le {q : ℚ} {n : Int} (h : (n : ℚ) ≤ q) : n ≤ trunc0 q := by
  simpa using trunc0_mono h

/-! ## The gradient -/

theorem clamp_nonneg (q : ℚ) : 0 ≤ clamp q 0 1 := by
  unfold clamp; split
  · exact le_refl _
  · split
    · norm_num
    · rename_i h _; exact not_lt.mp h

theorem clamp_le_one (q : ℚ) : clamp q 0 1 ≤ 1 := by
  unfold clamp; split
  · norm_num
  · split
    · exact le_refl _
    · rename_i _ h; exact not_lt.mp h

theorem clamp_mono {q r : ℚ} (h : q ≤ r) : clamp q 0 1 ≤ clamp r 0 1 := by
  unfold clamp
  split_ifs <;> linarith

theorem clamp_of_le_zero {q : ℚ} (h : q ≤ 0) : clamp q 0 1 = 0 := by
  unfold clamp
  split_ifs <;> linarith

theorem clamp_of_one_le {q : ℚ} (h : 1 ≤ q) : clamp q 0 1 = 1 := by
  unfold clamp
  split_ifs <;> linarith

theorem clamp_of_mem {q : ℚ} (h0 : 0 ≤ q) (h1 : q ≤ 1) : clamp q 0 1 = q := by
  unfold clamp
  split_ifs <;> linarith

/-! ## The exact interpolation -/

/-- The exact gradient (R95). -/
def exactGradient (start current stop : Int) : ℚ :=
  clamp (((current - start : Int) : ℚ) / ((stop - start : Int) : ℚ)) 0 1

/-- The exact interpolation through its gradient (R96). -/
theorem interpolateExact_eq (min max start current stop : Int) :
    interpolateExact min max start current stop =
      if start = stop then min
      else trunc0 ((min : ℚ) + exactGradient start current stop * ((max - min : Int) : ℚ)) := rfl

theorem interpolateExact_tie (min max start current : Int) : interpolateExact min max start current start = min := by
  simp [interpolateExact]

/-- A gradient of 0 gives min. -/
theorem interpolateExact_of_gradient_zero {min max start current stop : Int} (h : exactGradient start current stop = 0) :
    interpolateExact min max start current stop = min := by
  rw [interpolateExact_eq, h]; split <;> simp

/-- A gradient of 1 gives max. -/
theorem interpolateExact_of_gradient_one {min max start current stop : Int} (hne : start ≠ stop)
    (h : exactGradient start current stop = 1) : interpolateExact min max start current stop = max := by
  rw [interpolateExact_eq, h, if_neg hne]
  have : (min : ℚ) + 1 * ((max - min : Int) : ℚ) = (max : Int) := by push_cast; ring
  rw [this, trunc0_intCast]

/-- The result lies between min and max, min below. -/
theorem interpolateExact_bounds_of_le {min max : Int} (h : min ≤ max) (start current stop : Int) :
    min ≤ interpolateExact min max start current stop ∧ interpolateExact min max start current stop ≤ max := by
  rw [interpolateExact_eq]
  split
  · exact ⟨le_refl _, h⟩
  · have h0 := clamp_nonneg (((current - start : Int) : ℚ) / ((stop - start : Int) : ℚ))
    have h1 := clamp_le_one (((current - start : Int) : ℚ) / ((stop - start : Int) : ℚ))
    have hq : (0 : ℚ) ≤ ((max - min : Int) : ℚ) := by exact_mod_cast sub_nonneg.mpr h
    have e : ((max - min : Int) : ℚ) = (max : ℚ) - min := by push_cast; ring
    unfold exactGradient
    constructor
    · exact le_trunc0_of_intCast_le (by nlinarith [mul_nonneg h0 hq])
    · exact trunc0_le_of_le_intCast (by nlinarith [mul_le_of_le_one_left hq h1])

/-- The result lies between min and max, max below. -/
theorem interpolateExact_bounds_of_ge {min max : Int} (h : max ≤ min) (start current stop : Int) :
    max ≤ interpolateExact min max start current stop ∧ interpolateExact min max start current stop ≤ min := by
  rw [interpolateExact_eq]
  split
  · exact ⟨h, le_refl _⟩
  · have h0 := clamp_nonneg (((current - start : Int) : ℚ) / ((stop - start : Int) : ℚ))
    have h1 := clamp_le_one (((current - start : Int) : ℚ) / ((stop - start : Int) : ℚ))
    have hq : (0 : ℚ) ≤ ((min - max : Int) : ℚ) := by exact_mod_cast sub_nonneg.mpr h
    have e : ((max - min : Int) : ℚ) = -((min - max : Int) : ℚ) := by push_cast; ring
    have e' : ((min - max : Int) : ℚ) = (min : ℚ) - max := by push_cast; ring
    unfold exactGradient
    constructor
    · exact le_trunc0_of_intCast_le (by rw [e]; nlinarith [mul_le_of_le_one_left hq h1])
    · exact trunc0_le_of_le_intCast (by rw [e]; nlinarith [mul_nonneg h0 hq])

end Sys2Proof.Machine
end

