-- ==== Sys2Proof/Laws/Normalize.lean ====
section
/-! SUPPORT. The normalizer's two branches, its reduction into int32, and its quotient as a truncation. -/

namespace Sys2Proof.Machine

/-- A non-zero w as a number. -/
theorem w_ne_zero {v : Vertex} (h : v.w.toInt ≠ 0) : v.w ≠ 0 := fun e => h (by rw [e]; rfl)

/-- The branch of a non-zero w. -/
theorem normalizeVertex_of_w_ne_zero (mode : NormOverflow) {v : Vertex} (h : v.w ≠ 0) :
    normalizeVertex mode v = { v with x := normalizedX mode v, y := normalizedY mode v } := if_neg h

/-- A reduced number differs by a multiple of 2^32. -/
theorem wrapS32_toInt (n : Int) : (wrapS32 n).toInt = n + -((n + 2 ^ 31) / 2 ^ 32) * 2 ^ 32 := by
  simp only [wrapS32, BitVec.toInt_ofInt, Int.bmod]
  split <;> omega

/-- A number inside int32 is not changed. -/
theorem wrapS32_toInt_of_lt {n : Int} (h : n.natAbs < 2 ^ 31) : (wrapS32 n).toInt = n := by
  rw [wrapS32_toInt]
  omega

/-- trunc0 of a fraction with either sign below. -/
theorem trunc0_div_of_ne_zero (a b : Int) (hb : b ≠ 0) : trunc0 ((a : ℚ) / b) = Int.tdiv a b := by
  rcases lt_or_gt_of_ne hb with h | h
  · have := trunc0_div (-a) (-b) (by omega)
    rw [Int.neg_tdiv, Int.tdiv_neg, neg_neg] at this
    rw [← this]; push_cast; rw [neg_div_neg_eq]
  · exact trunc0_div a b h

end Sys2Proof.Machine
end

