-- ==== Sys2Proof/Laws/PerInstr.lean ====
section
/-! SUPPORT. The per-instruction family Row: each command's word lies in its own row of the opcode map (spec/30_encoding.md
R74), whatever its operand, and its operand field holds the operand (R73). -/

namespace Sys2Proof.Laws

/-- The mask of a command's row in R74. -/
def Row.mask : Instr → Word
  | .nop => 0xFFFFFFFF
  | .drawScanline _ => 0xFFFFFF00

/-- The match value of a command's row in R74. -/
def Row.value : Instr → Word
  | .nop => 0x00000000
  | .drawScanline _ => 0x01000000

/-- The operand of a command, 0 where it has none. -/
def Row.operand : Instr → Byte
  | .nop => 0
  | .drawScanline line => line

/-- The command is well formed, its word matches its row, and the word's low byte is its operand. -/
def Row.Statement (i : Instr) : Prop :=
  i.WellFormed ∧ encode i &&& Row.mask i = Row.value i ∧ argField (encode i) = Row.operand i

theorem Row.nop : Row.Statement .nop := by
  unfold Row.Statement
  decide

theorem Row.drawScanline (line : Byte) : Row.Statement (.drawScanline line) := by
  revert line
  unfold Row.Statement
  decide

end Sys2Proof.Laws
end

