-- ==== Sys2Proof/Laws/Raster.lean ====
section
/-! SUPPORT. The span fill pixel by pixel, and the sorting networks as permutations. -/

namespace Sys2Proof.Machine

/-! ## One pixel of the loop -/

/-- An iteration changes only its own pixel. -/
theorem fillPixel_other (arith : InterpArith) (line : Int) (e : EdgePair) (sp : Span) (buf : LineBuf) {x y : Fin 256}
    (h : y ≠ x) :
    (fillPixel arith line e sp buf y).pixels[x] = buf.pixels[x] ∧
    (fillPixel arith line e sp buf y).depths[x] = buf.depths[x] := by
  have hv : y.val ≠ x.val := fun e => h (Fin.ext e)
  unfold fillPixel
  dsimp only
  split
  · simp [hv]
  · simp

/-- An iteration's effect on its own pixel. -/
theorem fillPixel_self (arith : InterpArith) (line : Int) (e : EdgePair) (sp : Span) (buf : LineBuf) (x : Fin 256) :
    ((fillPixel arith line e sp buf x).pixels[x] =
      if pixelDepth arith line e sp x ≤ buf.depths[x].toInt then pixelColor arith line e sp x else buf.pixels[x]) ∧
    ((fillPixel arith line e sp buf x).depths[x] =
      if pixelDepth arith line e sp x ≤ buf.depths[x].toInt then BitVec.ofInt 32 (pixelDepth arith line e sp x)
      else buf.depths[x]) := by
  unfold fillPixel
  dsimp only
  split <;> simp

/-- The loop leaves a pixel outside its list alone. -/
theorem foldl_fillPixel_not_mem (arith : InterpArith) (line : Int) (e : EdgePair) (sp : Span) (x : Fin 256)
    (l : List (Fin 256)) (buf : LineBuf) (h : x ∉ l) :
    (l.foldl (fillPixel arith line e sp) buf).pixels[x] = buf.pixels[x] ∧
    (l.foldl (fillPixel arith line e sp) buf).depths[x] = buf.depths[x] := by
  induction l generalizing buf with
  | nil => exact ⟨rfl, rfl⟩
  | cons y l ih =>
    rw [List.mem_cons, not_or] at h
    have h1 := ih (fillPixel arith line e sp buf y) h.2
    have h2 := fillPixel_other arith line e sp buf (Ne.symm h.1)
    exact ⟨h1.1.trans h2.1, h1.2.trans h2.2⟩

/-- The loop treats each pixel of its list as one iteration on the original buffer does. -/
theorem foldl_fillPixel_mem (arith : InterpArith) (line : Int) (e : EdgePair) (sp : Span) (x : Fin 256)
    (l : List (Fin 256)) (hl : l.Nodup) (buf : LineBuf) (h : x ∈ l) :
    (l.foldl (fillPixel arith line e sp) buf).pixels[x] = (fillPixel arith line e sp buf x).pixels[x] ∧
    (l.foldl (fillPixel arith line e sp) buf).depths[x] = (fillPixel arith line e sp buf x).depths[x] := by
  induction l generalizing buf with
  | nil => simp at h
  | cons y l ih =>
    rw [List.nodup_cons] at hl
    rw [List.foldl_cons]
    rcases List.mem_cons.mp h with rfl | hx
    · exact foldl_fillPixel_not_mem arith line e sp x l _ hl.1
    · have hne : y ≠ x := fun e => hl.1 (e ▸ hx)
      have h1 := ih hl.2 (fillPixel arith line e sp buf y) hx
      have h2 := fillPixel_other arith line e sp buf hne
      have h3 := fillPixel_self arith line e sp (fillPixel arith line e sp buf y) x
      have h4 := fillPixel_self arith line e sp buf x
      rw [h2.1, h2.2] at h3
      exact ⟨h1.1.trans (h3.1.trans h4.1.symm), h1.2.trans (h3.2.trans h4.2.symm)⟩

/-- A span's list of pixels. -/
theorem Span.mem_pixels (sp : Span) (x : Fin 256) : x ∈ sp.pixels ↔ sp.lx0 ≤ x.val ∧ (x.val : Int) ≤ sp.lx1 := by
  constructor
  · intro h
    have h2 := (List.mem_filter.mp h).2
    rwa [Bool.and_eq_true, decide_eq_true_eq, decide_eq_true_eq] at h2
  · intro h
    refine List.mem_filter.mpr ⟨List.mem_finRange x, ?_⟩
    rwa [Bool.and_eq_true, decide_eq_true_eq, decide_eq_true_eq]

/-- Each pixel of a span is visited once (R134). -/
theorem Span.nodup_pixels (sp : Span) : sp.pixels.Nodup := (List.nodup_finRange 256).filter _

/-! ## Sorting -/

/-- CAS moves records and makes none. -/
theorem cas_perm {n : Nat} (v : Vector Vertex n) (p q : Fin n) : (cas v p q).toList.Perm v.toList := by
  unfold cas
  split
  · have : ((v.set p v[q]).set q v[p]) = v.swap p q := by
      apply Vector.ext
      intro i hi
      simp only [Fin.getElem_fin, Vector.getElem_set, Vector.getElem_swap]
      grind
    rw [this]
    have h := Vector.swap_perm (xs := v) (i := p.val) (j := q.val) p.isLt q.isLt
    exact h.toList
  · exact List.Perm.refl _

/-- CAS moves nothing when the ys already rise. -/
theorem cas_of_le {n : Nat} {v : Vector Vertex n} {p q : Fin n} (h : v[p].y.toInt ≤ v[q].y.toInt) : cas v p q = v := by
  rw [cas, if_neg (by omega)]

/-- CAS exchanges two records when the earlier y is greater. -/
theorem cas_of_lt {n : Nat} {v : Vector Vertex n} {p q : Fin n} (h : v[q].y.toInt < v[p].y.toInt) :
    cas v p q = (v.set p v[q]).set q v[p] := by
  rw [cas, if_pos h]

/-- The default quad network as its six CAS (R111). -/
theorem sort4_default (v : Vector Vertex 4) :
    sort4 defaultQuadSortNet v = cas (cas (cas (cas (cas (cas v 0 1) 0 2) 0 3) 1 2) 1 3) 2 3 := by
  have h : defaultQuadSortNet.toList = [(0, 1), (0, 2), (0, 3), (1, 2), (1, 3), (2, 3)] := rfl
  simp only [sort4, h, List.foldl_cons, List.foldl_nil]

/-- The triangle network permutes. -/
theorem sort3_perm (v : Vector Vertex 3) : (sort3 v).toList.Perm v.toList :=
  (cas_perm _ _ _).trans ((cas_perm _ _ _).trans (cas_perm _ _ _))

/-- Any quad network permutes. -/
theorem sort4_perm (net : Vector (Fin 4 × Fin 4) 6) (v : Vector Vertex 4) : (sort4 net v).toList.Perm v.toList := by
  unfold sort4
  induction net.toList generalizing v with
  | nil => exact List.Perm.refl _
  | cons pq l ih => exact (ih _).trans (cas_perm _ _ _)

/-! ## Edges -/

/-- The quad's edges once its row of the table is known. -/
theorem quadEdges_of_row (table : Vector QuadEdges 12) (v : Vector Vertex 4) (line : Int) {r : Fin 12}
    (h : quadRow (quadSignRow (isRight v[0] v[1] v[3]) (isRight v[0] v[2] v[3])) (quadRange v line) = r) :
    quadEdges table v line = ⟨v[table[r].a], v[table[r].b], v[table[r].c], v[table[r].d]⟩ := by
  subst h; rfl

/-- Sorted vertices rise from any position to any later one. -/
theorem Ascending.le {n : Nat} {v : Vector Vertex n} (h : Ascending v) {i j : Fin n} (hij : i < j) :
    v[i].y.toInt ≤ v[j].y.toInt := by
  have := List.pairwise_iff_getElem.mp h i j (by simp) (by simp) hij
  simpa using this

/-! ## The polygon loop -/

/-- A line is not rejected exactly when it lies between the ends, both included (R113). -/
theorem outsideY_eq_false (first last : Vertex) (line : Int) :
    outsideY first last line = false ↔ first.y.toInt ≤ line ∧ line ≤ last.y.toInt := by
  simp [outsideY]

/-- One turn of the loop, for either kind of polygon. -/
theorem drawPolygon_eq (p : Params) (line : Int) (buf : LineBuf) (poly : Polygon) :
    drawPolygon p line buf poly =
      if poly.outside p line then buf else rasterize p.interpArith line (poly.edges p line) buf := by
  cases poly <;> rfl

/-! ## Parameters -/

/-- Drawing reads four of the parameters. -/
theorem drawScanline_congr {p q : Params} (hi : p.interpArith = q.interpArith) (hn : p.normOverflow = q.normOverflow)
    (hs : p.quadSortNet = q.quadSortNet) (ht : p.quadEdgeTable = q.quadEdgeTable) (line : Byte) (polys : List Polygon) :
    drawScanline p line polys = drawScanline q line polys := by
  have h : drawPolygon p = drawPolygon q := by
    funext l buf poly
    cases poly <;> simp only [drawPolygon, hi, hn, hs, ht]
  simp only [drawScanline, h]

end Sys2Proof.Machine
end

