-- ==== Sys2Proof/Laws/Step.lean ====
section
/-! SUPPORT. What a step can do, said once: every host step is one of the effects listed here, each with the event that
causes it, and every step is an engine step, a host step or nothing. -/

namespace Sys2Proof.Machine

/-- The effects a port event can have on the state, and when. -/
inductive HostEffect (e : PortEvent) (s : State) : State → Prop where
  /-- No effect: NOP, a write CFG or LC_LAST_WRITTEN ignores, an access outside the window. -/
  | nothing : HostEffect e s s
  /-- The reset input. -/
  | reset (he : e = .reset) : HostEffect e s s.resetInput
  /-- A legal read of a register or of PRAM, or of a line-cache slot that is not being drawn. -/
  | replied (v : Word) (a width : Nat) (ha : a < 2 ^ 19) (he : e = s.readAt a width) (hl : LegalRead s.params a width) :
      HostEffect e s (s.reply v)
  /-- A legal read of the slot being drawn. -/
  | busyReply (v : Word) (a width : Nat) (ha : a < 2 ^ 19) (he : e = s.readAt a width)
      (hs : s.beingDrawn (lcSlotAt a) = true) : HostEffect e s (State.reply v { s with draws := s.draws + 1 })
  /-- A refused read. -/
  | refusedRead : HostEffect e s ((s.raise .busError).reply 0)
  /-- A refused write. -/
  | refusedWrite : HostEffect e s (s.raise .busError)
  /-- A CMD write while BUSY = 1. -/
  | overrun (w : Word) (he : e = s.writeAt 0x4 4 w) (hb : s.status.busy = true) : HostEffect e s (s.raise .commandOverrun)
  /-- An illegal word. -/
  | illegal (w : Word) (he : e = s.writeAt 0x4 4 w) (hb : s.status.busy = false) (why : Illegal)
      (hd : decode w = .illegal why) : HostEffect e s (s.raise .illegalCommand)
  /-- An accepted DRAW_SCANLINE. -/
  | accepted (w : Word) (line : Byte) (he : e = s.writeAt 0x4 4 w) (hb : s.status.busy = false)
      (hd : decode w = .command (.drawScanline line)) : HostEffect e s (s.accept line)
  /-- A STATUS write. -/
  | cleared (v : Word) (he : e = s.writeAt 0x8 4 v) : HostEffect e s (s.clearErrors v)
  /-- A POLY_COUNT write. -/
  | counted (v : Word) (he : e = s.writeAt 0xC 4 v) : HostEffect e s (s.writePolyCount v)
  /-- A LC_LAST_CONSUMED write. -/
  | consumed (v : Word) (he : e = s.writeAt 0x14 4 v) : HostEffect e s (s.writeLastConsumed v)
  /-- A PRAM write. -/
  | stored (a : Nat) (v : Word) (ha : a < 2 ^ 19) (he : e = s.writeAt a 4 v) (hlo : 0x40000 ≤ a)
      (hhi : a < 0x40000 + 128 * s.params.maxPolys) (hal : a % 4 = 0) : HostEffect e s (s.writePram a v)

/-! ## Commands -/

@[simp] theorem exec_nop_idle {s : State} (h : s.status.busy = false) : exec .nop s = .next s := by
  simp [exec, execNop, State.unlessBusy, h]

@[simp] theorem exec_draw_idle {s : State} (line : Byte) (h : s.status.busy = false) :
    exec (.drawScanline line) s = .next (s.accept line) := by
  simp [exec, execDrawScanline, State.unlessBusy, h]

/-- Any command while BUSY = 1 is turned away. -/
@[simp] theorem exec_busy {s : State} (i : Instr) (h : s.status.busy = true) :
    exec i s = .next (s.raise .commandOverrun) := by
  cases i <;> simp [exec, execNop, execDrawScanline, State.unlessBusy, h]

/-- A word written to CMD, as one case analysis. -/
theorem writeCommand_eq (w : Word) (s : State) :
    writeCommand w s = .next (if s.status.busy then s.raise .commandOverrun else
      match decode w with
      | .command .nop => s
      | .command (.drawScanline line) => s.accept line
      | .illegal _ => s.raise .illegalCommand) := by
  unfold writeCommand
  split
  · simp_all
  · rename_i h
    simp only [Bool.not_eq_true] at h
    rcases hd : decode w with i | why
    · cases i <;> simp [h]
    · simp

/-! ## Register accesses -/

/-- The registers by offset. -/
theorem registerAt_cases {a : Nat} (h : a < 0x18) (h4 : a % 4 = 0) :
    (a = 0x00 ∧ registerAt a = .cfg) ∨ (a = 0x04 ∧ registerAt a = .cmd) ∨ (a = 0x08 ∧ registerAt a = .status) ∨
    (a = 0x0C ∧ registerAt a = .polyCount) ∨ (a = 0x10 ∧ registerAt a = .lastWritten) ∨
    (a = 0x14 ∧ registerAt a = .lastConsumed) := by
  have : a = 0 ∨ a = 4 ∨ a = 8 ∨ a = 12 ∨ a = 16 ∨ a = 20 := by omega
  rcases this with rfl | rfl | rfl | rfl | rfl | rfl <;> simp [registerAt]

/-! ## One event -/

/-- Every event is answered by one of the effects. -/
theorem portEvent_effect (e : PortEvent) (s : State) : ∃ t, portEvent e s = .next t ∧ HostEffect e s t := by
  cases e with
  | reset => exact ⟨_, rfl, .reset rfl⟩
  | read addr width =>
    simp only [portEvent]
    rcases ho : offset? s.params addr with _ | off
    · exact ⟨_, rfl, .nothing⟩
    have he := offset?_eq_some ho
    refine ⟨_, rfl, ?_⟩
    unfold State.hostRead
    rcases readTarget_cases s.params off width with ⟨h, h1⟩ | ⟨h, h1, h2, h3, h4⟩ | ⟨h, h1⟩ | ⟨h, h1⟩ <;> rw [h]
    · exact .replied _ off.toNat width off.isLt (by rw [he]) (.inl ⟨by omega, by omega, by omega⟩)
    · simp only [State.noteBusyRead]
      split
      · rename_i hs
        exact .busyReply _ off.toNat width off.isLt (by rw [he]) hs
      · exact .replied _ off.toNat width off.isLt (by rw [he]) (.inr ⟨h3, h4, h1, h2⟩)
    · exact .replied _ off.toNat width off.isLt (by rw [he]) (.inl ⟨by omega, by omega, by omega⟩)
    · exact .refusedRead
  | write addr width v =>
    simp only [portEvent]
    rcases ho : offset? s.params addr with _ | off
    · exact ⟨_, rfl, .nothing⟩
    have he := offset?_eq_some ho
    simp only [hostWrite]
    rcases writeTarget_cases s.params off width with ⟨h, h1, rfl, h2⟩ | ⟨h, h1, h2, rfl, h3⟩ | ⟨h, h1⟩ <;> rw [h]
    · rcases registerAt_cases h1 h2 with ⟨ha, hr⟩ | ⟨ha, hr⟩ | ⟨ha, hr⟩ | ⟨ha, hr⟩ | ⟨ha, hr⟩ | ⟨ha, hr⟩ <;>
        simp only [hr, registerWrite] <;> rw [ha] at he
      · exact ⟨_, rfl, .nothing⟩
      · refine ⟨_, writeCommand_eq v s, ?_⟩
        split
        · rename_i hb; exact .overrun v (by rw [he]) hb
        · rename_i hb
          simp only [Bool.not_eq_true] at hb
          rcases hd : decode v with i | why
          · cases i with
            | nop => exact .nothing
            | drawScanline line => exact .accepted v line (by rw [he]) hb hd
          · exact .illegal v (by rw [he]) hb why hd
      · exact ⟨_, rfl, .cleared v (by rw [he])⟩
      · exact ⟨_, rfl, .counted v (by rw [he])⟩
      · exact ⟨_, rfl, .nothing⟩
      · exact ⟨_, rfl, .consumed v (by rw [he])⟩
    · exact ⟨_, rfl, .stored off.toNat v off.isLt (by rw [he]) h1 h2 h3⟩
    · exact ⟨_, rfl, .refusedWrite⟩

/-! ## One step -/

/-- The host step of a presented event. -/
theorem step_presents {s : State} {e : PortEvent} {rest : List PortEvent} (h : s.Presents e rest) :
    step s = portEvent e (s.takeEvent rest) := by
  simp [step, h.1, h.2]

/-- A read presented at an offset of the window. -/
theorem step_readAt {s : State} {a width : Nat} {rest : List PortEvent} (h : s.Presents (s.readAt a width) rest)
    (ha : a < 2 ^ 19) : step s = .next ((s.takeEvent rest).hostRead (BitVec.ofNat 19 a) width) := by
  rw [step_presents h]
  have ho : offset? (s.takeEvent rest).params (s.params.windowBase + a) = some (BitVec.ofNat 19 a) :=
    offset?_base_add s.params ha
  simp only [portEvent, ho]

/-- A write presented at an offset of the window. -/
theorem step_writeAt {s : State} {a width : Nat} {v : Word} {rest : List PortEvent}
    (h : s.Presents (s.writeAt a width v) rest) (ha : a < 2 ^ 19) :
    step s = hostWrite (BitVec.ofNat 19 a) width v (s.takeEvent rest) := by
  rw [step_presents h]
  have ho : offset? (s.takeEvent rest).params (s.params.windowBase + a) = some (BitVec.ofNat 19 a) :=
    offset?_base_add s.params ha
  simp only [portEvent, ho]

/-- A register write. -/
theorem step_writeAt_register {s : State} {a : Nat} {v : Word} {rest : List PortEvent}
    (h : s.Presents (s.writeAt a 4 v) rest) (ha : a < 0x18) (h4 : a % 4 = 0) :
    step s = registerWrite (registerAt a) v (s.takeEvent rest) := by
  have hn := toNat_ofNat_offset (a := a) (by omega)
  rw [step_writeAt h (by omega), hostWrite]
  rcases writeTarget_cases (s.takeEvent rest).params (BitVec.ofNat 19 a) 4 with ⟨e, -⟩ | ⟨-, h1, -⟩ | ⟨-, h1⟩
  · rw [e, hn]
  · omega
  · exact absurd ⟨rfl, by omega, .inl (by omega)⟩ h1

/-- A PRAM write. -/
theorem step_writeAt_pram {s : State} {a : Nat} {v : Word} {rest : List PortEvent}
    (h : s.Presents (s.writeAt a 4 v) rest) (hw : a < 2 ^ 19) (hlo : 0x40000 ≤ a)
    (hhi : a < 0x40000 + 128 * s.params.maxPolys) (h4 : a % 4 = 0) :
    step s = .next ((s.takeEvent rest).writePram a v) := by
  have hn := toNat_ofNat_offset hw
  rw [step_writeAt h hw, hostWrite]
  rcases writeTarget_cases (s.takeEvent rest).params (BitVec.ofNat 19 a) 4 with ⟨-, h1, -⟩ | ⟨e, -⟩ | ⟨-, h1⟩
  · omega
  · rw [e, hn]
  · exact absurd ⟨rfl, by omega, .inr ⟨by omega, by simpa [hn] using hhi⟩⟩ h1

/-- A refused write. -/
theorem step_writeAt_refused {s : State} {a width : Nat} {v : Word} {rest : List PortEvent}
    (h : s.Presents (s.writeAt a width v) rest) (hw : a < 2 ^ 19) (hl : ¬ LegalWordAccess s.params a width) :
    step s = .next ((s.takeEvent rest).raise .busError) := by
  have hn := toNat_ofNat_offset hw
  rw [step_writeAt h hw, hostWrite]
  rcases writeTarget_cases (s.takeEvent rest).params (BitVec.ofNat 19 a) width with ⟨-, h1, h2, h3⟩ | ⟨-, h1, h2, h3, h4⟩ | ⟨e, -⟩
  · exact absurd ⟨h2, by omega, .inl (by omega)⟩ hl
  · exact absurd ⟨h3, by omega, .inr ⟨by omega, by simpa [hn] using h2⟩⟩ hl
  · rw [e]

/-- A register read. -/
theorem step_readAt_register {s : State} {a : Nat} {rest : List PortEvent}
    (h : s.Presents (s.readAt a 4) rest) (ha : a < 0x18) (h4 : a % 4 = 0) :
    step s = .next ((s.takeEvent rest).reply (s.registerRead (registerAt a))) := by
  have hn := toNat_ofNat_offset (a := a) (by omega)
  rw [step_readAt h (by omega), State.hostRead]
  rcases readTarget_cases (s.takeEvent rest).params (BitVec.ofNat 19 a) 4 with ⟨e, -⟩ | ⟨-, h1, -⟩ | ⟨-, h1, -⟩ | ⟨-, h1⟩
  · rw [e, hn]
    cases registerAt a <;> rfl
  · omega
  · omega
  · exact absurd (.inl ⟨rfl, by omega, .inl (by omega)⟩) h1

/-- A PRAM read. -/
theorem step_readAt_pram {s : State} {a : Nat} {rest : List PortEvent}
    (h : s.Presents (s.readAt a 4) rest) (hw : a < 2 ^ 19) (hlo : 0x40000 ≤ a)
    (hhi : a < 0x40000 + 128 * s.params.maxPolys) (h4 : a % 4 = 0) :
    step s = .next ((s.takeEvent rest).reply (s.pramWord a)) := by
  have hn := toNat_ofNat_offset hw
  rw [step_readAt h hw, State.hostRead]
  rcases readTarget_cases (s.takeEvent rest).params (BitVec.ofNat 19 a) 4 with ⟨-, h1, -⟩ | ⟨-, h1, h2, -⟩ | ⟨e, -⟩ | ⟨-, h1⟩
  · omega
  · omega
  · rw [e, hn]
    rfl
  · exact absurd (.inl ⟨rfl, by omega, .inr ⟨by omega, by simpa [hn] using hhi⟩⟩) h1

/-- A line-cache read of a legal width. -/
theorem step_readAt_lineCache {s : State} {a width : Nat} {rest : List PortEvent}
    (h : s.Presents (s.readAt a width) rest) (hlo : 0x10000 ≤ a) (hhi : a < 0x16000) (hw : width = 2 ∨ width = 4)
    (hal : a % width = 0) :
    step s = .next (((s.takeEvent rest).noteBusyRead (lcSlotAt a)).reply ((s.takeEvent rest).lineCacheRead a width)) := by
  have hn := toNat_ofNat_offset (a := a) (by omega)
  rw [step_readAt h (by omega), State.hostRead]
  rcases readTarget_cases (s.takeEvent rest).params (BitVec.ofNat 19 a) width with ⟨-, h1, -⟩ | ⟨e, -⟩ | ⟨-, h1, -⟩ | ⟨-, h1⟩
  · omega
  · rw [e, hn]
  · omega
  · exact absurd (.inr ⟨hw, by rw [hn]; exact hal, by omega, by omega⟩) h1

/-- A refused read. -/
theorem step_readAt_refused {s : State} {a width : Nat} {rest : List PortEvent}
    (h : s.Presents (s.readAt a width) rest) (hw : a < 2 ^ 19) (hl : ¬ LegalRead s.params a width) :
    step s = .next (((s.takeEvent rest).raise .busError).reply 0) := by
  have hn := toNat_ofNat_offset hw
  rw [step_readAt h hw, State.hostRead]
  rcases readTarget_cases (s.takeEvent rest).params (BitVec.ofNat 19 a) width with
    ⟨-, h1, h2, h3⟩ | ⟨-, h1, h2, h3, h4⟩ | ⟨-, h1, h2, h3, h4⟩ | ⟨e, -⟩
  · exact absurd (.inl ⟨h2, by omega, .inl (by omega)⟩) hl
  · exact absurd (.inr ⟨h3, by rw [← hn]; exact h4, by omega, by omega⟩) hl
  · exact absurd (.inl ⟨h3, by omega, .inr ⟨by omega, by simpa [hn] using h2⟩⟩) hl
  · rw [e]

/-- The engine step. -/
theorem step_engine {s : State} (h : s.engineDue = true) : step s = .next s.engineStep := by
  simp [step, h]

/-- The engine step is due only while BUSY = 1. -/
theorem busy_of_engineDue {s : State} (h : s.engineDue = true) : s.status.busy = true := by
  simp only [State.engineDue, Bool.and_eq_true] at h
  exact h.1

/-- An idle block has no engine step. -/
theorem engineDue_idle {s : State} (h : s.status.busy = false) : s.engineDue = false := by
  simp [State.engineDue, h]

/-- Everything a step can do. -/
theorem step_cases {s t : State} (h : step s = .next t) :
    (s.engineDue = true ∧ t = s.engineStep) ∨
    (s.engineDue = false ∧ s.port = [] ∧ t = s) ∨
    ∃ e rest, s.Presents e rest ∧ HostEffect e (s.takeEvent rest) t := by
  by_cases hd : s.engineDue = true
  · rw [step_engine hd] at h
    injection h with h
    exact .inl ⟨hd, h.symm⟩
  · simp only [Bool.not_eq_true] at hd
    right
    rcases hp : s.port with _ | ⟨e, rest⟩
    · left
      simp only [step, hd, hp] at h
      injection h with h
      exact ⟨hd, rfl, h.symm⟩
    · right
      refine ⟨e, rest, ⟨hd, hp⟩, ?_⟩
      rw [step_presents ⟨hd, hp⟩] at h
      obtain ⟨u, hu, heff⟩ := portEvent_effect e (s.takeEvent rest)
      rw [hu] at h
      injection h with h
      exact h ▸ heff

/-! ## What disturbs a draw -/

/-- A CMD write disturbs. -/
theorem disturbs_cmd (s : State) (w : Word) : disturbs s.params (s.writeAt 0x4 4 w) = true := by
  simp only [disturbs]
  rw [offset?_base_add _ (by norm_num)]
  simp [writeTarget, regionOf, Option.filter, legalWrite, registerAt]

/-- A POLY_COUNT write disturbs. -/
theorem disturbs_polyCount (s : State) (v : Word) : disturbs s.params (s.writeAt 0xC 4 v) = true := by
  simp only [disturbs]
  rw [offset?_base_add _ (by norm_num)]
  simp [writeTarget, regionOf, Option.filter, legalWrite, registerAt]

/-- A PRAM write disturbs. -/
theorem disturbs_pram (s : State) {a : Nat} (v : Word) (ha : a < 2 ^ 19) (hlo : 0x40000 ≤ a)
    (hhi : a < 0x40000 + 128 * s.params.maxPolys) (h4 : a % 4 = 0) : disturbs s.params (s.writeAt a 4 v) = true := by
  simp only [disturbs]
  rw [offset?_base_add _ ha]
  have hn := toNat_ofNat_offset ha
  rcases writeTarget_cases s.params (BitVec.ofNat 19 a) 4 with ⟨-, h1, -⟩ | ⟨e, -⟩ | ⟨-, h1⟩
  · omega
  · simp only [e]
  · exact absurd ⟨rfl, by omega, .inr ⟨by omega, by simpa [hn] using hhi⟩⟩ h1

/-- An event that disturbs nothing, while BUSY = 1: the pending draw and what it will draw stay as they are. -/
theorem HostEffect.quiet {e : PortEvent} {s t : State} (h : HostEffect e s t) (hb : s.status.busy = true) (hr : e ≠ .reset)
    (hq : disturbs s.params e = false) :
    t.status.busy = true ∧ t.pendLine = s.pendLine ∧ t.port = s.port ∧ t.engineWait = s.engineWait ∧ t.params = s.params ∧
      t.polygons = s.polygons ∧ t.taint = s.taint ∧ (t.status.cmdovf = true → s.status.cmdovf = true) ∧
      (t.status.illcmd = true → s.status.illcmd = true) := by
  cases h with
  | reset he => exact absurd he hr
  | overrun w he _ => exact absurd (he ▸ disturbs_cmd s w) (by simp [hq])
  | illegal w he hb' => simp [hb] at hb'
  | accepted w line he hb' => simp [hb] at hb'
  | counted v he => exact absurd (he ▸ disturbs_polyCount s v) (by simp [hq])
  | stored a v ha he hlo hhi h4 => exact absurd (he ▸ disturbs_pram s v ha hlo hhi h4) (by simp [hq])
  | _ =>
    refine ⟨by simp [hb], by simp, by simp, by simp, by simp, State.polygons_congr (by simp) (by simp) (by simp), by simp, ?_⟩
    constructor <;> simp <;> tauto

/-- While BUSY = 1 only the engine step and reset end a draw. -/
theorem HostEffect.keeps_busy {e : PortEvent} {s t : State} (h : HostEffect e s t) (hb : s.status.busy = true)
    (hr : e ≠ .reset) :
    t.status.busy = true ∧ t.pendLine = s.pendLine ∧ t.engineWait = s.engineWait ∧ t.port = s.port := by
  cases h with
  | reset he => exact absurd he hr
  | accepted w line he hb' hd => simp [hb] at hb'
  | illegal w he hb' => simp [hb] at hb'
  | _ => simp [hb]

end Sys2Proof.Machine
end

