-- ==== Sys2Proof/Laws/Words.lean ====
section
/-! SUPPORT. Words as numbers: each concatenation and field of the spec read through `toNat`. -/

namespace Sys2Proof.Machine

/-- A concatenation as a number. -/
theorem toNat_append_eq {m n : Nat} (x : BitVec m) (y : BitVec n) : (x ++ y).toNat = x.toNat * 2 ^ n + y.toNat := by
  rw [BitVec.toNat_append, ← Nat.shiftLeft_add_eq_or_of_lt y.isLt, Nat.shiftLeft_eq]

/-! ## Commands -/

theorem opcodeField_toNat (w : Word) : (opcodeField w).toNat = w.toNat / 2 ^ 24 := by
  have := w.isLt
  simp [opcodeField, Nat.shiftRight_eq_div_pow]
  omega

theorem reservedField_toNat (w : Word) : (reservedField w).toNat = w.toNat / 2 ^ 8 % 2 ^ 16 := by
  simp [reservedField, Nat.shiftRight_eq_div_pow]

theorem argField_toNat (w : Word) : (argField w).toNat = w.toNat % 2 ^ 8 := by
  simp [argField]

theorem fCmd_toNat (opcode arg : Byte) : (fCmd opcode arg).toNat = opcode.toNat * 2 ^ 24 + arg.toNat := by
  have h1 : (fCmd opcode arg).toNat = (opcode ++ (0 : Half)).toNat * 2 ^ 8 + arg.toNat := toNat_append_eq _ _
  have h2 : (opcode ++ (0 : Half)).toNat = opcode.toNat * 2 ^ 16 + (0 : Half).toNat := toNat_append_eq _ _
  rw [h1, h2]
  simp
  omega

/-- The decoder by the numbers its fields hold. -/
theorem decode_eq (w : Word) : decode w =
    if w.toNat / 2 ^ 8 % 2 ^ 16 ≠ 0 then .illegal .reservedBits
    else if w.toNat / 2 ^ 24 = 0 ∧ w.toNat % 2 ^ 8 = 0 then .command .nop
    else if w.toNat / 2 ^ 24 = 1 then .command (.drawScanline (argField w))
    else if w.toNat / 2 ^ 24 = 0 then .illegal .nopArgument
    else .illegal .unknownOpcode := by
  have h0 (x : Half) : x = 0 ↔ x.toNat = 0 := by rw [← BitVec.toNat_inj]; simp
  have h1 (x y : Byte) : x = y ↔ x.toNat = y.toNat := by rw [← BitVec.toNat_inj]
  simp only [decode, ne_eq, h0, h1, opcodeField_toNat, reservedField_toNat, argField_toNat]
  simp

/-! ## Registers -/

theorem bit_toNat (b : Bool) : (bit b).toNat = b.toNat := by
  cases b <;> rfl

theorem Status.read_toNat (f : Status) : f.read.toNat =
    f.busy.toNat + f.lwValid.toNat * 2 + f.illcmd.toNat * 2 ^ 8 + f.cmdovf.toNat * 2 ^ 9 + f.buserr.toNat * 2 ^ 10 := by
  obtain ⟨a, b, c, d, e⟩ := f
  cases a <;> cases b <;> cases c <;> cases d <;> cases e <;> rfl

/-- STATUS bit by bit. -/
theorem Status.read_getLsbD (f : Status) : ∀ n < 32, f.read.getLsbD n =
    ((n == 0 && f.busy) || (n == 1 && f.lwValid) || (n == 8 && f.illcmd) || (n == 9 && f.cmdovf) ||
      (n == 10 && f.buserr)) := by
  obtain ⟨a, b, c, d, e⟩ := f
  cases a <;> cases b <;> cases c <;> cases d <;> cases e <;> decide

theorem LastWritten.read_toNat (r : LastWritten) : r.read.toNat = r.slot.toNat * 2 ^ 8 + r.line.toNat := by
  have h1 : r.read.toNat = ((0 : BitVec 18) ++ r.slot).toNat * 2 ^ 8 + r.line.toNat := toNat_append_eq _ _
  have h2 : ((0 : BitVec 18) ++ r.slot).toNat = (0 : BitVec 18).toNat * 2 ^ 6 + r.slot.toNat := toNat_append_eq _ _
  rw [h1, h2]
  simp

theorem cfgWord_toNat (p : Params) (h : p.maxPolys < 2 ^ 16) :
    (cfgWord p).toNat = 48 + 192 * 2 ^ 8 + p.maxPolys * 2 ^ 16 := by
  have h1 : (cfgWord p).toNat =
      (BitVec.ofNat 16 p.maxPolys ++ BitVec.ofNat 8 screenHeight).toNat * 2 ^ 8 + (BitVec.ofNat 8 lcSlots).toNat :=
    toNat_append_eq _ _
  have h2 : (BitVec.ofNat 16 p.maxPolys ++ BitVec.ofNat 8 screenHeight).toNat =
      (BitVec.ofNat 16 p.maxPolys).toNat * 2 ^ 8 + (BitVec.ofNat 8 screenHeight).toNat := toNat_append_eq _ _
  have h3 : (BitVec.ofNat 16 p.maxPolys).toNat = p.maxPolys := by
    rw [BitVec.toNat_ofNat, Nat.mod_eq_of_lt h]
  rw [h1, h2, h3]
  simp [screenHeight, lcSlots]
  omega

/-! ## Colors -/

theorem packColor_toNat (b g r : BitVec 5) :
    (packColor b g r).toNat = 2 ^ 15 + b.toNat * 2 ^ 10 + g.toNat * 2 ^ 5 + r.toNat := by
  have h1 : (packColor b g r).toNat = ((1 : BitVec 1) ++ b ++ g).toNat * 2 ^ 5 + r.toNat := toNat_append_eq _ _
  have h2 : ((1 : BitVec 1) ++ b ++ g).toNat = ((1 : BitVec 1) ++ b).toNat * 2 ^ 5 + g.toNat := toNat_append_eq _ _
  have h3 : ((1 : BitVec 1) ++ b).toNat = (1 : BitVec 1).toNat * 2 ^ 5 + b.toNat := toNat_append_eq _ _
  rw [h1, h2, h3]
  simp
  omega

theorem red_toNat (c : Half) : (red c).toNat = c.toNat % 32 := by
  simp [red]

theorem green_toNat (c : Half) : (green c).toNat = c.toNat / 32 % 32 := by
  simp [green, Nat.shiftRight_eq_div_pow]

theorem blue_toNat (c : Half) : (blue c).toNat = c.toNat / 1024 % 32 := by
  simp [blue, Nat.shiftRight_eq_div_pow]

end Sys2Proof.Machine
end

