-- ==== Sys2Proof/Tests/Slice0.lean ====
section
/-! SUPPORT. The model's own tests. Expected values are the spec's (spec/95_test_vectors.md, by vector name) or written out from
its encodings. Then the WellFormed smoke tests, and for each statement of Certificates/Slice0/Obligations.lean that has
hypotheses one theorem that meets them, at the ends of their ranges. -/

namespace Sys2Proof.Tests

open Sys2Proof.Machine

/-! ## Small states -/

/-- The state after reset, with events presented. -/
def idle (port : List PortEvent) : State := { State.reset with port := port }

/-- A DRAW_SCANLINE of this line accepted, its engine step waiting for `wait` events. -/
def drawing (line : Byte) (wait : Nat) (port : List PortEvent) : State :=
  { State.reset with
    port := port, engineWait := wait, pendLine := line,
    status := { busy := true, lwValid := false, illcmd := false, cmdovf := false, buserr := false } }

/-- A word write at an offset, the window's base being 0. -/
def wr (a : Nat) (v : Word) : PortEvent := .write a 4 v

/-- A read at an offset, the window's base being 0. -/
def rd (a width : Nat) : PortEvent := .read a width

/-- A view of the state a step leaves. -/
def seen {α : Type} (f : State → α) (r : Result) : Option α :=
  match r with
  | .next t => some (f t)
  | .fault _ => none
  | .refused _ => none

/-- A vertex from numbers. -/
def vertex (x y z w : Int) (color : Half) : Vertex :=
  { x := BitVec.ofInt 32 x, y := BitVec.ofInt 32 y, z := BitVec.ofInt 32 z, w := BitVec.ofInt 32 w, color := color }

/-- A vertex that normalize passes through, where only the position matters. -/
def point (x y : Int) : Vertex := vertex x y 10 0 0x801F

/-- An edge pair of two vertical edges, V-R's "edge at x = k". -/
def verticals (l r : Int) : EdgePair := ⟨point l 0, point l 200, point r 0, point r 200⟩

/-- V-T5's point triangle, with a depth and a color. -/
def dot (z : Int) (color : Half) : Vector Vertex 3 := #v[vertex 7 9 z 0 color, vertex 7 9 z 0 color, vertex 7 9 z 0 color]

/-- `dot` as a quad. -/
def quadDot (z : Int) (color : Half) : Vector Vertex 4 :=
  #v[vertex 7 9 z 0 color, vertex 7 9 z 0 color, vertex 7 9 z 0 color, vertex 7 9 z 0 color]

/-! ## Decoding: words written out from R70 to R77 -/

theorem test_decode_nop : decode (0b00000000#8 ++ 0b00000000#8 ++ 0b00000000#8 ++ 0b00000000#8) = .command .nop := by decide

theorem test_decode_draw :
    decode (0b00000001#8 ++ 0b00000000#8 ++ 0b00000000#8 ++ 0b01100100#8) = .command (.drawScanline 100) := by decide

theorem test_decode_bytes_little_endian :
    decodeBytes [0x64, 0x00, 0x00, 0x01] = .command (.drawScanline 100) ∧
      decodeBytes [0x01, 0x00, 0x00, 0x64] = .illegal .unknownOpcode ∧ decodeBytes [0x64, 0x00] = .illegal .notOneWord := by
  decide

/-- V-E5 to V-E9. -/
theorem test_decode_illegal :
    decode 0x01000100 = .illegal .reservedBits ∧ decode 0x00000001 = .illegal .nopArgument ∧
      decode 0x02000000 = .illegal .unknownOpcode ∧ decode 0xFFFFFFFF = .illegal .reservedBits ∧
      decode 0x00800000 = .illegal .reservedBits := by decide

theorem test_decodeTableWord :
    decodeTableWord 32 0 = some .nop ∧ decodeTableWord 32 0x010000FF = some (.drawScanline 255) ∧
      decodeTableWord 32 0x02000000 = none := by decide

/-! ## The commands -/

/-- R142's worked example. -/
theorem test_nop : seen (fun t => (t.status.read, t.port)) (step (State.reset.withFetchWord 32 0)) = some (0, []) := by decide

/-- V-E31. -/
theorem test_draw_accepted :
    seen (fun t => (t.status.read, t.pendLine, t.taint)) (step (State.reset.withFetchWord 32 0x01000064)) =
      some (0x00000001, 100, false) := by decide

/-- V-E32, and P5's second end state: the draw of line 5 still pending, DRAW 6 is discarded. -/
theorem test_draw_overrun :
    seen (fun t => (t.status.read, t.pendLine)) (step (drawing 5 1 [wr 4 0x01000006])) = some (0x00000201, 5) := by decide

/-- P5's first end state: the draw of line 5 completes first, and DRAW 6 is still presented. -/
theorem test_engine_first :
    seen (fun t => (t.status.read, t.lastWritten.read, t.port)) (step (drawing 5 0 [wr 4 0x01000006])) =
      some (0x00000002, 0x00000505, [wr 4 0x01000006]) := by decide

/-- V-E33 to V-E36. -/
theorem test_last_written :
    (lastWrittenOf 100).read = 0x00000464 ∧ (lastWrittenOf 255).read = 0x00000FFF ∧
      (lastWrittenOf 191).read = 0x00002FBF ∧ (lastWrittenOf 192).read = 0x000000C0 := by decide

/-! ## The port -/

/-- V-E11: 5000 stores MAX_POLYS. -/
theorem test_polyCount_saturates : seen (fun t => t.polyCount) (step (idle [wr 0xC 0x1388])) = some 2048 := by decide

/-- V-E14. -/
theorem test_lastConsumed : seen (fun t => t.registerRead .lastConsumed) (step (idle [wr 0x14 0x1234])) = some 0x34 := by decide

/-- V-E15. -/
theorem test_status_clear :
    (Status.clear 0x00000100 ⟨false, true, true, false, true⟩).read = 0x00000402 ∧
      (Status.clear 0xFFFFFFFF ⟨false, true, false, false, true⟩).read = 0x00000002 := by decide

/-- V-E19, V-E26: a refused read returns 0 and sets BUSERR. -/
theorem test_refused_read :
    seen (fun t => (t.status.read, t.replies)) (step (idle [rd 8 2])) = some (0x400, [0]) ∧
      seen (fun t => (t.status.read, t.replies)) (step (idle [rd 0x40000 1])) = some (0x400, [0]) := by decide

/-- V-E37, V-E38: the order of the errors. -/
theorem test_error_priority :
    seen (fun t => t.status.read) (step (drawing 5 1 [.write 4 2 0x0064])) = some 0x401 ∧
      seen (fun t => t.status.read) (step (drawing 5 1 [wr 4 0x02000000])) = some 0x201 := by decide

/-- V-E39: the word lands and TAINT is set; a PRAM word is little-endian. -/
theorem test_pram_write_while_busy :
    seen (fun t => (t.taint, t.pram)) (step (drawing 5 1 [wr 0x40008 9])) =
      some (true, [(0x40008, 9), (0x40009, 0), (0x4000A, 0), (0x4000B, 0)]) := by decide

/-- V-E28: PRAM beyond MAX_POLYS entries is unmapped. -/
theorem test_small_pram :
    readTarget { Params.default with maxPolys := 16 } 0x40800 4 = none ∧
      readTarget { Params.default with maxPolys := 16 } 0x407FC 4 = some .pram := by decide

/-- V-E29, V-E30: where offsets 0x10614 and 0x10616 lie. -/
theorem test_lineCache_offsets :
    lcSlotAt 0x10614 = 3 ∧ lcPixelAt 0x10614 = 10 ∧ lcPixelAt 0x10616 = 11 ∧ lcOffset 3 10 = 0x10614 := by decide

/-- V-E41: another slot reads normally while one is being drawn. -/
theorem test_lineCache_other_slot :
    seen (fun t => t.replies)
      (step { drawing 5 1 [rd 0x10C00 2] with lc := Vector.replicate 48 (Vector.replicate 256 0x801F) }) = some [0x801F] := by
  decide

/-- R178: reset abandons a draw. -/
theorem test_reset_abandons :
    seen (fun t => (t.status.read, t.engineDue, t.pendLine)) (step (drawing 5 1 [.reset])) = some (0, false, 0) := by decide

/-! ## The datapath -/

/-- V-N4, V-N9. -/
theorem test_normalize :
    ((normalizeVertex .wrap (vertex (-1) 1 0 3 0)).x.toInt, (normalizeVertex .wrap (vertex (-1) 1 0 3 0)).y.toInt) = (86, 64) ∧
      (normalizeVertex .wrap (vertex 2147483647 0 0 128 0)).x.toInt = -2147483521 := by decide

/-- V-I8, V-I10. -/
theorem test_interpolate_exact :
    interpolate .exact 10 0 0 1 4 = 7 ∧ interpolate .exact 0 22 0 13 22 = 13 := by decide +kernel

/-- V-I10, V-I13. -/
theorem test_interpolate_binary32 :
    interpolate .binary32 0 22 0 13 22 = 12 ∧ interpolate .binary32 0 16777217 0 1 1 = 16777216 := by decide +kernel

/-- V-C1, V-C7. -/
theorem test_interpolateColor :
    interpolateColor .exact 0x001F 0x7C00 0 1 2 = 0xBC0F ∧ interpolateColor .binary32 0x0000 0x0016 0 13 22 = 0x800C := by
  decide +kernel

/-- V-S1: equal ys come out reversed. -/
theorem test_sort3 : sort3 #v[point 1 5, point 2 5, point 3 3] = #v[point 3 3, point 2 5, point 1 5] := by decide

/-- V-S8, V-S9. -/
theorem test_sort4 :
    sort4 defaultQuadSortNet #v[point 1 7, point 2 7, point 3 7, point 4 2] = #v[point 4 2, point 2 7, point 3 7, point 1 7] ∧
      sort4 defaultQuadSortNet #v[point 1 5, point 2 5, point 3 1, point 4 1] =
        #v[point 3 1, point 4 1, point 1 5, point 2 5] := by decide

/-- V-T2, line 30. -/
theorem test_triangle_span :
    spanOf .exact 30 (triEdges #v[point 128 10, point 20 60, point 200 110] 30) = some ⟨84, 142⟩ := by decide +kernel

/-- V-Q2, line 80. -/
theorem test_quad_span :
    spanOf .exact 80 (quadEdges defaultQuadEdgeTable #v[point 100 10, point 200 60, point 50 100, point 150 150] 80) =
      some ⟨61, 188⟩ := by decide +kernel

/-- R136's example, V-R1: the ramp runs over the clamped bounds. -/
theorem test_clamped_ramp :
    pixelDepth .exact 100 ⟨vertex (-100) 0 0 0 0, vertex (-100) 200 0 0 0, vertex 100 0 200 0 0, vertex 100 200 200 0 0⟩
      ⟨0, 100⟩ 50 = 100 := by decide +kernel

/-- V-T5 and R131: one pixel, and the tie goes to the later polygon. -/
theorem test_draw_tie :
    (drawScanline Params.default 9 [.triangle (dot 20 0x801F), .triangle (dot 20 0x83E0)]).pixels[7] = 0x83E0 ∧
      (drawScanline Params.default 9 [.triangle (dot 20 0x801F), .triangle (dot 20 0x83E0)]).pixels[8] = 0x0000 := by
  decide +kernel

/-! ## Host programs (R83) -/

theorem test_expand_vtx :
    (expand (.vtx 1 0 10 10 (-1) 0 0x83E0)).head? = some (.wr32 0x40084 0x0000000A) ∧
      (expand (.vtx 1 0 10 10 (-1) 0 0x83E0)).getLast? = some (.wr32 0x40094 0x000083E0) ∧
      expand (.pix 30 10 "a10") = [.rd16 0x13C14 "a10"] := by decide

theorem test_assemble : assembleDraw 100 = some 0x01000064 ∧ assembleDraw 256 = none := by decide

/-! ## WellFormed refuses -/

theorem test_wellFormed_instr : (Instr.drawScanline 255).WellFormed := by decide

theorem test_wellFormed_stmt :
    ¬ (HostStmt.wr32 0x80000 0).WellFormed ∧ ¬ (HostStmt.wr32 0 (2 ^ 32)).WellFormed ∧ ¬ (HostStmt.rd32 0x80000 "a").WellFormed ∧
      ¬ (HostStmt.rd16 0x80000 "a").WellFormed ∧ ¬ (HostStmt.bnz "s" (2 ^ 32) "w").WellFormed ∧
      (HostStmt.wr32 0x7FFFF (2 ^ 32 - 1)).WellFormed := by decide

theorem test_wellFormed_pseudo :
    ¬ (PseudoStmt.draw 256).WellFormed ∧ ¬ (PseudoStmt.setCount (2 ^ 32)).WellFormed ∧ ¬ (PseudoStmt.poly 2048 0).WellFormed ∧
      ¬ (PseudoStmt.poly 0 (2 ^ 32)).WellFormed ∧ ¬ (PseudoStmt.pix 48 0 "p").WellFormed ∧
      ¬ (PseudoStmt.pix 0 256 "p").WellFormed := by decide

theorem test_wellFormed_vtx_place :
    ¬ (PseudoStmt.vtx 2048 0 0 0 0 0 0).WellFormed ∧ ¬ (PseudoStmt.vtx 0 4 0 0 0 0 0).WellFormed := by decide

theorem test_wellFormed_vtx_position :
    ¬ (PseudoStmt.vtx 0 0 (2 ^ 31) 0 0 0 0).WellFormed ∧ ¬ (PseudoStmt.vtx 0 0 0 (2 ^ 31) 0 0 0).WellFormed := by decide

theorem test_wellFormed_vtx_depth :
    ¬ (PseudoStmt.vtx 0 0 0 0 (2 ^ 31) 0 0).WellFormed ∧ ¬ (PseudoStmt.vtx 0 0 0 0 0 (-2 ^ 31 - 1) 0).WellFormed := by decide

theorem test_wellFormed_vtx_color :
    ¬ (PseudoStmt.vtx 0 0 0 0 0 0 (2 ^ 32)).WellFormed ∧
      (PseudoStmt.vtx 2047 3 (-2 ^ 31) (2 ^ 31 - 1) 0 0 (2 ^ 32 - 1)).WellFormed := by decide

theorem test_wellFormed_params_maxPolys :
    ¬ { Params.default with maxPolys := 0 }.WellFormed ∧ ¬ { Params.default with maxPolys := 2049 }.WellFormed := by decide

/-- A network that does not sort, and one that compares backwards. -/
theorem test_wellFormed_params_net :
    ¬ { Params.default with quadSortNet := #v[(0, 1), (0, 2), (0, 3), (1, 2), (1, 3), (1, 2)] }.WellFormed ∧
      ¬ { Params.default with quadSortNet := #v[(1, 0), (0, 2), (0, 3), (1, 2), (1, 3), (2, 3)] }.WellFormed := by decide

theorem test_wellFormed_params_table :
    ¬ { Params.default with quadEdgeTable := Vector.replicate 12 ⟨1, 0, 2, 3⟩ }.WellFormed := by decide

/-! ## Witnesses of the statements' hypotheses -/

theorem test_witness_DecodeEncodeAgree :
    (Instr.drawScanline 255).WellFormed ∧ decode 0x010000FF = .command (.drawScanline 255) ∧ decode 0 = .command .nop := by decide

/-- The three ways to be illegal, each at its lowest word. -/
theorem test_witness_IllegalWordsSetIllcmd :
    ((idle [wr 4 0x02000000]).Presents ((idle [wr 4 0x02000000]).writeAt 0x4 4 0x02000000) [] ∧
      (idle [wr 4 0x02000000]).status.busy = false ∧ decode 0x02000000 = .illegal .unknownOpcode) ∧
    decode 0x00000100 = .illegal .reservedBits ∧ decode 0x00000001 = .illegal .nopArgument := by decide

theorem test_witness_NopHasNoEffect :
    (idle []).status.busy = false ∧ (drawing 0 0 []).status.busy = true ∧
      (0x00000001 : Word).toNat / 2 ^ 24 = 0 ∧ (0x00000001 : Word) ≠ 0x00000000 := by decide

theorem test_witness_DrawScanlineAccepted :
    (idle []).status.busy = false ∧ (drawing 255 0 []).status.busy = true ∧
      (0x01000100 : Word).toNat / 2 ^ 8 % 2 ^ 16 ≠ 0 := by decide

theorem test_witness_CommandOverrunDiscards :
    (drawing 5 1 [wr 4 0x02000000]).Presents ((drawing 5 1 [wr 4 0x02000000]).writeAt 0x4 4 0x02000000) [] ∧
      (drawing 5 1 [wr 4 0x02000000]).status.busy = true := by decide

theorem test_witness_StepRunsDecodedCommand :
    decode 0x01000005 = .command (.drawScanline 5) ∧
      (idle [wr 4 0x01000005]).Presents ((idle [wr 4 0x01000005]).writeAt 0x4 4 0x01000005) [] := by decide

theorem test_witness_StepRunsEngineWhenDue :
    (drawing 5 0 [rd 8 4]).engineDue = true ∧ ((drawing 5 9 []).status.busy = true ∧ (drawing 5 9 []).port = []) ∧
      (idle []).status.busy = false ∧ (idle []).port = [] := by decide

/-- Two live entries, a triangle and behind it a quad, whose other header bits are set and not read; a third is not live. -/
def twoEntries : State :=
  { drawing 9 0 [] with
    polyCount := 2,
    pram := Memory.writeWord 0x40000 0xFFFFFFFE (Memory.writeWord 0x40080 0xFFFFFFFF (Memory.writeWord 0x40100 0 [])) }

/-- R28, R32, R108: which entries are drawn, in which order, and of which kind. -/
theorem test_polygons :
    (twoEntries.polygons.map fun poly => match poly with | .triangle _ => 3 | .quad _ => 4) = [3, 4] := by decide

/-- The first and the last live entry, one of each KIND. -/
theorem test_witness_EngineStepCompletes_polygons :
    0 < twoEntries.polyCount.toNat ∧ 1 < twoEntries.polyCount.toNat ∧
      (twoEntries.pramWord (0x40000 + 128 * 0 + 4 * 0)).getLsbD 0 = false ∧
      (twoEntries.pramWord (0x40000 + 128 * 1 + 4 * 0)).getLsbD 0 = true := by decide

theorem test_witness_EngineStepCompletes :
    (drawing 255 0 []).engineDue = true ∧ (drawing 255 0 []).taint = false ∧
      (47 : Fin 48).val ≠ (drawing 255 0 []).pendLine.toNat % 48 := by decide

/-- A refused read and a refused write next to each region's ends, and a legal access at each. -/
theorem test_witness_RefusedAccesses :
    (∀ aw ∈ [(0x18, 4), (0xFFFC, 4), (0x16000, 2), (0x3FFFC, 4), (0x7FFFE, 2), (0x7FFFF, 1)],
      (idle [rd aw.1 aw.2]).Presents ((idle [rd aw.1 aw.2]).readAt aw.1 aw.2) [] ∧ ¬ LegalRead Params.default aw.1 aw.2) ∧
    (∀ aw ∈ [(0x18, 4), (0x10000, 4), (0x15FFE, 2), (0x40002, 4)],
      (idle [.write aw.1 aw.2 1]).Presents ((idle [.write aw.1 aw.2 1]).writeAt aw.1 aw.2 1) [] ∧
        ¬ LegalWordAccess Params.default aw.1 aw.2) ∧
    (∀ aw ∈ [(0x00, 4), (0x14, 4), (0x10000, 2), (0x15FFE, 2), (0x40000, 4), (0x7FFFC, 4)], LegalRead Params.default aw.1 aw.2) ∧
    ∀ a ∈ [0x00, 0x14, 0x40000, 0x7FFFC], LegalWordAccess Params.default a 4 ∧ a ≠ 0x4 ∧ a ≠ 0x8 := by decide

theorem test_witness_ErrorPriority :
    (∀ aw ∈ [(0x4, 2), (0x5, 4), (0x7, 4)],
      (drawing 5 1 [.write aw.1 aw.2 0]).Presents ((drawing 5 1 [.write aw.1 aw.2 0]).writeAt aw.1 aw.2 0) [] ∧
        (aw.1 ≠ 0x4 ∨ aw.2 ≠ 4)) ∧
    ((drawing 5 1 [wr 4 0]).Presents ((drawing 5 1 [wr 4 0]).writeAt 4 4 0) [] ∧ (drawing 5 1 [wr 4 0]).status.busy = true) ∧
    ((idle [wr 4 1]).Presents ((idle [wr 4 1]).writeAt 4 4 1) [] ∧ (idle [wr 4 1]).status.busy = false ∧
      decode 1 = .illegal .nopArgument) := by decide

theorem test_witness_no_status_write_no_reset (s : State) (a width : Nat) (rest : List PortEvent) (h : s.port = rd a width :: rest) :
    (∀ r v, ¬ s.Presents (s.writeAt 0x8 4 v) r) ∧ ∀ r, ¬ s.Presents .reset r := by
  constructor <;> intros <;> rintro ⟨-, e⟩ <;> rw [h] at e <;> cases e

/-- All three bits set, and a read presented. -/
theorem test_witness_StickyBitsStay :
    let s : State := { idle [rd 0 4] with status := ⟨false, false, true, true, true⟩ }
    seen (fun t => t.status) (step s) = some ⟨false, false, true, true, true⟩ ∧ s.port = rd 0 4 :: [] := by decide

theorem test_witness_StatusWriteClears :
    (idle [wr 8 0xFFFFFFFF]).Presents ((idle [wr 8 0xFFFFFFFF]).writeAt 0x8 4 0xFFFFFFFF) [] := by decide

/-- BUSY set by an acceptance, kept by a read, cleared by a completion. -/
theorem test_witness_BusyChangesOnly :
    seen (fun t => t.status.busy) (step (idle [wr 4 0x01000000])) = some true ∧
      seen (fun t => t.status.busy) (step (drawing 0 1 [rd 8 4])) = some true ∧
      seen (fun t => t.status.busy) (step (drawing 0 0 [])) = some false := by decide

theorem test_witness_LwValidChangesOnly :
    seen (fun t => t.status.lwValid) (step (drawing 0 0 [])) = some true ∧
      seen (fun t => t.status.lwValid) (step { idle [rd 8 4] with status := ⟨false, true, false, false, false⟩ }) = some true ∧
      seen (fun t => t.status.lwValid) (step { idle [.reset] with status := ⟨false, true, false, false, false⟩ }) = some false := by
  decide

theorem test_witness_RegisterReads :
    (idle []).params.WellFormed ∧ ∀ a ∈ [0x00, 0x04, 0x08, 0x0C, 0x10, 0x14],
      (idle [rd a 4]).Presents ((idle [rd a 4]).readAt a 4) [] ∧ a < 0x18 ∧ a % 4 = 0 := by decide

theorem test_witness_RegisterWrites :
    (idle []).params.WellFormed ∧ ∀ a ∈ [0x00, 0x08, 0x0C, 0x10, 0x14],
      (idle [wr a 0xFFFFFFFF]).Presents ((idle [wr a 0xFFFFFFFF]).writeAt a 4 0xFFFFFFFF) [] ∧ a < 0x18 ∧ a % 4 = 0 ∧ a ≠ 0x04 := by
  decide

/-- A step that is not its read, and one that changes it. -/
theorem test_witness_LastConsumedIsHostScratch :
    seen (fun t => t.lastConsumed) (step (idle [rd 8 4])) = some 0 ∧ (∀ r, ¬ (idle [rd 8 4]).Presents ((idle []).readAt 0x14 4) r) ∧
      seen (fun t => t.lastConsumed) (step (idle [wr 0x14 0xFF])) = some 0xFF := by
  refine ⟨by decide, ?_, by decide⟩
  rintro r ⟨-, h⟩
  cases h

/-- Reset while BUSY = 1, from two states that differ in what they hold. -/
theorem test_witness_ResetAbandonsAndForgets :
    (drawing 5 1 [.reset]).Presents .reset [] ∧ (idle [.reset]).Presents .reset [] ∧
      (drawing 5 1 [.reset]).params = (idle [.reset]).params ∧ (drawing 5 1 [.reset]).draws = (idle [.reset]).draws ∧
      (drawing 5 1 [.reset]).replies = (idle [.reset]).replies := by decide

/-- The first and the last PRAM word. -/
theorem test_witness_PramReadAfterWrite :
    (idle []).params.WellFormed ∧ ∀ a ∈ [0x40000, 0x7FFFC],
      (idle [wr a 7]).Presents ((idle [wr a 7]).writeAt a 4 7) [] ∧ (idle [rd a 4]).Presents ((idle [rd a 4]).readAt a 4) [] ∧
        0x40000 ≤ a ∧ a < 0x40000 + 128 * (idle []).params.maxPolys ∧ a % 4 = 0 := by decide

/-- The last pixel, the last pair, and a slot beside the one being drawn. -/
theorem test_witness_LineCacheReads :
    (idle [rd 0x15FFE 2]).Presents ((idle [rd 0x15FFE 2]).readAt (0x10000 + 512 * 47 + 2 * 255) 2) [] ∧
      (idle [rd 0x15FFC 4]).Presents ((idle [rd 0x15FFC 4]).readAt (0x10000 + 512 * 47 + 2 * 254) 4) [] ∧
      (254 : Fin 256).val % 2 = 0 ∧ (47 : Fin 48).val ≠ (drawing 0 1 []).pendLine.toNat % 48 := by decide

/-- A line cache of ones, whose slot 0 the engine step clears. -/
theorem test_witness_LineCacheWriters :
    let s : State := { drawing 0 0 [] with lc := Vector.replicate 48 (Vector.replicate 256 1), zbuf := Vector.replicate 256 1 }
    seen (fun t => (t.lc[0][0], (t.zbuf[0]).toInt)) (step s) = some (0, 2 ^ 31 - 1) ∧ s.lc[0][0] = 1 ∧ s.zbuf[0] = 1 ∧
      s.port ≠ [.reset] := by decide

theorem test_witness_PramWriters :
    (drawing 0 0 []).engineDue = true ∧
      seen (fun t => t.pramByte 0x40000) (step { idle [wr 0x40000 1] with pram := [(0x40000, 0)] }) = some 1 ∧
      ({ idle [wr 0x40000 1] with pram := [(0x40000, 0)] } : State).pramByte 0x40000 = 0 := by decide

/-- The last vertex slot of the last entry. -/
theorem test_witness_VtxWritesVertexSlot :
    let port := (expand (.vtx 2047 3 (-2 ^ 31) (2 ^ 31 - 1) 0 (-1) 0xFFFF)).filterMap (accessOf Params.default)
    (idle port).params.WellFormed ∧ (idle port).status.busy = false ∧ 2047 < (idle port).params.maxPolys ∧
      (PseudoStmt.vtx 2047 3 (-2 ^ 31) (2 ^ 31 - 1) 0 (-1) 0xFFFF).WellFormed ∧ (idle port).params = Params.default := by decide

/-- A full POLY_COUNT, a PRAM byte and a drawn line. -/
theorem test_witness_InvariantKept :
    let s : State := { idle [wr 0x7FFFC 1] with
      pram := [(0x40000, 1), (0x7FFFF, 2)], polyCount := 2048, lastWritten := lastWrittenOf 255 }
    s.Inv ∧ seen (fun t => t.polyCount) (step s) = some 2048 := by decide

theorem test_witness_ParametersConstant : seen (fun t => t.params) (step (idle [.reset])) = some Params.default := by decide

theorem test_witness_DrawProgress :
    (drawing 0 2 [rd 8 4, rd 8 4, rd 8 4]).status.busy = true ∧
      ∀ e ∈ (drawing 0 2 [rd 8 4, rd 8 4, rd 8 4]).port, e ≠ .reset := by decide

/-- DRAW 255, and behind it a poll, a read of the slot and a write of LC_LAST_CONSUMED. -/
theorem test_witness_DrawScanlineDraws :
    let s := idle [wr 4 (encode (.drawScanline 255)), rd 8 4, rd 0x11E00 2, wr 0x14 1]
    s.status.busy = false ∧ s.port = s.writeAt 0x4 4 (encode (.drawScanline 255)) :: [rd 8 4, rd 0x11E00 2, wr 0x14 1] ∧
      ∀ e ∈ [rd 8 4, rd 0x11E00 2, wr 0x14 1], e ≠ .reset ∧ disturbs s.params e = false := by decide

/-- Two states that differ in a reserved word of a live entry, and in MAX_POLYS. -/
theorem test_witness_DrawDependsOnlyOnLiveWords :
    let s : State := { drawing 9 0 [] with polyCount := 1 }
    let s' : State := { s with pram := Memory.writeWord 0x40054 7 s.pram, params := { Params.default with maxPolys := 1 } }
    s.engineDue = true ∧ s'.engineDue = true ∧ s.taint = false ∧ s'.taint = false ∧
      s.params.interpArith = s'.params.interpArith ∧ s.params.normOverflow = s'.params.normOverflow ∧
      s.params.quadSortNet = s'.params.quadSortNet ∧ s.params.quadEdgeTable = s'.params.quadEdgeTable ∧
      s.pendLine = s'.pendLine ∧ s.polyCount = s'.polyCount ∧ ∀ i < s.polyCount.toNat, SameUsedWords i s s' := by
  intro s s'
  refine ⟨by decide, by decide, rfl, rfl, rfl, rfl, rfl, rfl, rfl, rfl, fun i hi => ?_⟩
  have hi : i = 0 := by
    change i < 1 at hi
    omega
  subst hi
  have same (b : Nat) (h : b + 4 ≤ 0x40054) : s'.pramWord b = s.pramWord b :=
    State.pramWord_writePram_other (.inl h) 7 s
  refine ⟨by rw [same _ (by omega)], fun j hj => ?_⟩
  have hj : j < 4 := by
    split at hj <;> omega
  exact ⟨fun k hk => (same _ (by omega)).symm, by rw [same _ (by omega)]⟩

theorem test_witness_DisciplineKeepsDrawClean :
    (drawing 5 1 [rd 8 4]).Disciplined = true ∧ (drawing 5 1 [rd 0x10C00 2]).Disciplined = true ∧
      (idle [wr 4 0x01000000]).Disciplined = true ∧ (drawing 5 1 [rd 0x10A00 2]).Disciplined = false := by decide

/-- The bounds of R91: |x| and |y| below 2^23, and |w| at least 256 with the largest magnitudes. -/
theorem test_witness_NormalizeTruncates :
    ((vertex (2 ^ 23 - 1) (-(2 ^ 23 - 1)) 0 1 0).w.toInt ≠ 0 ∧
      (vertex (2 ^ 23 - 1) (-(2 ^ 23 - 1)) 0 1 0).x.toInt.natAbs < 2 ^ 23 ∧
      (vertex (2 ^ 23 - 1) (-(2 ^ 23 - 1)) 0 1 0).y.toInt.natAbs < 2 ^ 23) ∧
    256 ≤ (vertex (-2 ^ 31) (-2 ^ 31) 0 (-256) 0).w.toInt.natAbs := by decide

theorem test_witness_Normalize_w :
    (vertex 300 (-7) 9 0 0x1234).w.toInt = 0 ∧ (vertex (2 ^ 31 - 1) (-2 ^ 31) 0 1 0).w.toInt ≠ 0 := by decide

theorem test_witness_InterpolateExactQuotient :
    ((3 : Int) < 5 ∧ (3 : Int) ≤ 3) ∧ ((3 : Int) < 5 ∧ (5 : Int) ≤ 5) ∧ ((3 : Int) < 5 ∧ (3 : Int) ≤ 4 ∧ (4 : Int) ≤ 5) ∧
      (3 : Int) < 10 := by decide

/-- The orders; 24 bits at their bound; sums inside int32 at the largest value below 2^31; and min = 2^24 + 1, which is no
binary32 value. -/
theorem test_witness_InterpolateExactMonotone :
    ((-5 : Int) ≤ 0 ∧ (0 : Int) ≤ 0 ∧ (3 : Int) < 5 ∧ (4 : Int) ≤ 4 ∧ (3 : Int) ≤ 3 ∧ (5 : Int) ≤ 5) ∧
    ((-2 ^ 24 : Int).natAbs ≤ 2 ^ 24 ∧ (0 : Int).natAbs ≤ 2 ^ 24 ∧ (0 - -2 ^ 24 : Int).natAbs ≤ 2 ^ 24) ∧
    (-2 ^ 31 ≤ binary32Sum (-2 ^ 31) (2 ^ 31 - 128) 0 0 1 ∧ binary32Sum (-2 ^ 31) (2 ^ 31 - 128) 0 0 1 ≤ 2 ^ 31 - 1) ∧
    (-2 ^ 31 ≤ binary32Sum 0 (2 ^ 31 - 128) 0 1 1 ∧ binary32Sum 0 (2 ^ 31 - 128) 0 1 1 ≤ 2 ^ 31 - 1) ∧
    -2 ^ 31 ≤ fl ((2 ^ 24 + 1 : Int) : ℚ) ∧ fl ((2 ^ 24 + 1 : Int) : ℚ) ≤ 2 ^ 31 - 1 := by decide +kernel

theorem test_witness_InterpolateFitsInt32 : IsInt32 (-2 ^ 31) ∧ IsInt32 (2 ^ 31 - 1) := by decide

/-- The largest significand at the lowest exponent; and 2^24 + 1, which lies halfway between 2^24 and 2^24 + 2. -/
theorem test_witness_FlIsNearestBinary32 :
    IsBinary32 (((2 ^ 24 - 1 : Int) : ℚ) * pow2 (-149)) ∧
    IsBinary32 (2 ^ 24 + 2) ∧ ((2 ^ 24 + 2 : ℚ) ≠ fl (2 ^ 24 + 1)) ∧
      |(2 ^ 24 + 1 : ℚ) - (2 ^ 24 + 2)| = |(2 ^ 24 + 1 : ℚ) - fl (2 ^ 24 + 1)| := by
  have h : fl (2 ^ 24 + 1) = 2 ^ 24 := by decide +kernel
  refine ⟨⟨2 ^ 24 - 1, -149, by decide, by decide, rfl⟩, ⟨2 ^ 23 + 1, 1, by decide, by decide, by decide +kernel⟩, ?_, ?_⟩ <;>
    rw [h] <;> norm_num

/-- Channel 2, rising and falling. -/
theorem test_witness_ColorChannelsIndependent :
    2 < 3 ∧ (0x001F : Half).toNat / 32 ^ 2 % 32 ≤ (0x7C00 : Half).toNat / 32 ^ 2 % 32 ∧
      (0x7C00 : Half).toNat / 32 ^ 0 % 32 ≤ (0x001F : Half).toNat / 32 ^ 0 % 32 := by decide

/-- Ys that meet each clause, with ties where it allows them; V-S1, V-S2, V-S4 to V-S7 among the orders. -/
theorem test_witness_Sort3Sorts :
    (∀ n ∈ [((2, 2, 2) : Int × Int × Int), (1, 2, 3)], n.1 ≤ n.2.1 ∧ n.2.1 ≤ n.2.2) ∧
    (∀ n ∈ [((1, 3, 2) : Int × Int × Int), (1, 2, 1)], n.1 ≤ n.2.2 ∧ n.2.2 < n.2.1) ∧
    ((1 : Int) < 2 ∧ (2 : Int) < 3) ∧ ((3 : Int) < 5 ∧ (5 : Int) = 5) ∧
    (∀ n ∈ [((2, 1, 3) : Int × Int × Int), (2, 1, 2)], n.2.1 < n.1 ∧ n.1 ≤ n.2.2) ∧
    (∀ n ∈ [((9, 1, 5) : Int × Int × Int), (2, 1, 1)], n.2.1 ≤ n.2.2 ∧ n.2.2 < n.1) := by decide

/-- Another legal network of six pairs, and ascending vertices with a tie; then ys (7, 7, 7, 2) and (5, 5, 1, 1). -/
theorem test_witness_Sort4Sorts :
    { Params.default with quadSortNet := #v[(0, 1), (2, 3), (0, 2), (1, 3), (1, 2), (1, 2)] }.NetSorts ∧
    Ascending #v[point 1 1, point 2 1, point 3 2, point 4 2] ∧
    ((point 1 7).y.toInt = (point 2 7).y.toInt ∧ (point 2 7).y.toInt = (point 3 7).y.toInt ∧
      (point 4 2).y.toInt < (point 3 7).y.toInt) ∧
    ((point 1 5).y.toInt = (point 2 5).y.toInt ∧ (point 3 1).y.toInt < (point 2 5).y.toInt ∧
      (point 3 1).y.toInt = (point 4 1).y.toInt) := by decide

theorem test_witness_CasSwapsStrictly :
    (0 : Fin 3) < 2 ∧ (#v[point 0 5, point 0 5, point 0 4])[2].y.toInt < (#v[point 0 5, point 0 5, point 0 4])[0].y.toInt ∧
      (#v[point 0 5, point 0 5, point 0 4])[0].y.toInt ≤ (#v[point 0 5, point 0 5, point 0 4])[1].y.toInt := by decide

/-- A point at y = 9 and the lines beside it and on it, as a triangle and as a quad. -/
theorem test_witness_PolygonOffLineChangesNothing :
    (∀ v ∈ (Polygon.triangle (dot 10 0)).normalized .wrap, (8 : Int) < v.y.toInt) ∧
    (∀ v ∈ (Polygon.triangle (dot 10 0)).normalized .wrap, v.y.toInt < (10 : Int)) ∧
    Params.default.NetSorts ∧
    ∀ poly ∈ [Polygon.triangle (dot 10 0), Polygon.quad (quadDot 10 0)],
      (∃ v ∈ poly.normalized .wrap, v.y.toInt ≤ (9 : Int)) ∧ ∃ v ∈ poly.normalized .wrap, (9 : Int) ≤ v.y.toInt := by
  decide +kernel

/-- A quad is drawn on its line: V-T5's point as a quad. -/
theorem test_quad_drawn :
    (drawScanline Params.default 9 [.quad (quadDot 20 0x801F)]).pixels[7] = 0x801F ∧
      (drawScanline Params.default 10 [.quad (quadDot 20 0x801F)]).pixels[7] = 0x0000 := by decide +kernel

/-- v2 right, v2 on the line from v1 to v3, and the lines around v2.y = 50. -/
theorem test_witness_TriangleEdgeTable :
    0 < cross (point 0 0) (point 51 50) (point 100 100) ∧ cross (point 0 0) (point 50 50) (point 100 100) ≤ 0 ∧
      (49 : Int) < (point 51 50).y.toInt ∧ (point 51 50).y.toInt ≤ (50 : Int) := by decide

/-- v2 and v3 each right of the line from v1 to v4, or on it, and the lines around v2.y = 40 and v3.y = 70. -/
theorem test_witness_QuadEdgeTable :
    0 < cross (point 0 0) (point 41 40) (point 100 100) ∧ cross (point 0 0) (point 40 40) (point 100 100) ≤ 0 ∧
      0 < cross (point 0 0) (point 71 70) (point 100 100) ∧ cross (point 0 0) (point 70 70) (point 100 100) ≤ 0 ∧
      (39 : Int) < (point 41 40).y.toInt ∧ ((point 41 40).y.toInt ≤ (40 : Int) ∧ (69 : Int) < (point 71 70).y.toInt) ∧
      (point 41 40).y.toInt ≤ (70 : Int) ∧ (point 71 70).y.toInt ≤ (70 : Int) := by decide

theorem test_witness_DegenerateQuadIsTriangle : (99 : Int) < (point 100 100).y.toInt := by decide

theorem test_witness_EdgesDescendOnSortedVertices :
    Ascending #v[point 0 5, point 1 5, point 2 9] ∧ Params.default.EdgesDescend ∧
      Ascending #v[point 0 5, point 1 5, point 2 9, point 3 9] := by decide

/-- The left bound at 256 and at 255, the right bound at -1 and at 0 (V-R2, V-R3). -/
theorem test_witness_SpanClamps :
    255 < interpolate .exact (point 256 5).x.toInt (point 256 5).x.toInt 5 5 5 ∧
      interpolate .exact (point (-1) 5).x.toInt (point (-1) 5).x.toInt 5 5 5 < 0 ∧
      interpolate .exact (point 255 5).x.toInt (point 255 5).x.toInt 5 5 5 ≤ 255 ∧
      0 ≤ interpolate .exact (point 0 5).x.toInt (point 0 5).x.toInt 5 5 5 := by decide

/-- V-R5's kind of span and one pixel that passes and one that does not. -/
theorem test_witness_RasterizePixelwise :
    spanOf .exact 100 (verticals 0 255) = some ⟨0, 255⟩ ∧ pixelDepth .exact 100 (verticals 0 255) ⟨0, 255⟩ 255 = 10 ∧
      spanOf .exact 100 (verticals 150 100) = some ⟨150, 100⟩ := by decide +kernel

theorem test_witness_ClampedRampEnds : spanOf .exact 100 (verticals (-100) 300) = some ⟨0, 255⟩ := by decide +kernel

theorem test_witness_EmptyListClearsLine :
    (drawing 255 0 []).engineDue = true ∧ (drawing 255 0 []).taint = false ∧ (drawing 255 0 []).polyCount = 0 := by decide

/-- A triangle and, behind it, a quad, both the point (7, 9) at depth 20. -/
theorem test_witness_DepthTieGoesToLater :
    let u := Polygon.triangle (dot 20 0x801F)
    let v := Polygon.quad (quadDot 20 0x83E0)
    let p := Params.default
    u.outside p 9 = false ∧ v.outside p 9 = false ∧ spanOf .exact 9 (u.edges p 9) = some ⟨7, 7⟩ ∧
      spanOf .exact 9 (v.edges p 9) = some ⟨7, 7⟩ ∧
      pixelDepth .exact 9 (u.edges p 9) ⟨7, 7⟩ 7 = pixelDepth .exact 9 (v.edges p 9) ⟨7, 7⟩ 7 ∧
      pixelDepth .exact 9 (u.edges p 9) ⟨7, 7⟩ 7 ≤ ((drawScanline p 9 []).depths[7]).toInt := by decide +kernel

end Sys2Proof.Tests
end

section
/-! PROOFS. The invariant of every step (O28): what it depends on, and what the three operations that write its fields do
to it. -/

namespace Sys2Proof.Machine

/-- The invariant speaks of the parameters, PRAM, COUNT and LC_LAST_WRITTEN alone. -/
theorem State.Inv.congr {s t : State} (h : s.Inv) (hparams : t.params = s.params) (hpram : t.pram = s.pram)
    (hcount : t.polyCount = s.polyCount) (hlast : t.lastWritten = s.lastWritten) : t.Inv := by
  simpa only [State.Inv, State.PramInWindow, State.CountInRange, State.LastWrittenAgrees, hparams, hpram, hcount, hlast]
    using h

/-- Right after reset the invariant holds for all legal parameters: PRAM lists nothing and the registers are 0. -/
theorem State.inv_powerOn {p : Params} (h : p.WellFormed) (draw : Nat) : (State.powerOn p draw).Inv :=
  ⟨h, List.Pairwise.nil, fun _ hc => absurd hc List.not_mem_nil, Nat.zero_le _, rfl⟩

/-- The reset input establishes the invariant from the legal parameters alone. -/
theorem State.inv_resetInput {s : State} (h : s.params.WellFormed) : s.resetInput.Inv :=
  (State.inv_powerOn h s.draws).congr rfl rfl rfl rfl

/-- A PRAM write at an aligned offset of the window keeps PRAM inside the window: the window's end is a multiple of 4. -/
theorem State.PramInWindow.writePram {s : State} (h : s.PramInWindow) {a : Nat} (v : Word) (hlo : 0x40000 ≤ a)
    (hhi : a < 0x40000 + 128 * s.params.maxPolys) (hal : a % 4 = 0) : (s.writePram a v).PramInWindow := by
  intro c hc
  rw [State.writePram_params]
  rcases Memory.mem_writeWord hc with ⟨hge, hlt⟩ | hold
  · unfold pramBase
    omega
  · exact h c hold

/-- A PRAM write at a legal offset keeps the invariant. -/
theorem State.Inv.writePram {s : State} (h : s.Inv) {a : Nat} (v : Word) (hlo : 0x40000 ≤ a)
    (hhi : a < 0x40000 + 128 * s.params.maxPolys) (hal : a % 4 = 0) : (s.writePram a v).Inv := by
  obtain ⟨hwf, hmem, hwin, hcount, hlast⟩ := h
  exact ⟨hwf, Memory.writeWord_wf a v hmem, hwin.writePram v hlo hhi hal, hcount, hlast⟩

/-- COUNT's 12 bits hold every legal MAX_POLYS, so the minimum it is given is not cut (R28). -/
theorem State.countInRange_writePolyCount {s : State} (h : s.params.PolysInRange) (v : Word) :
    (s.writePolyCount v).CountInRange := by
  obtain ⟨-, hmax⟩ := h
  simp only [State.CountInRange, State.writePolyCount_polyCount, State.writePolyCount_params, BitVec.toNat_ofNat]
  omega

/-- A POLY_COUNT write keeps the invariant. -/
theorem State.Inv.writePolyCount {s : State} (h : s.Inv) (v : Word) : (s.writePolyCount v).Inv := by
  obtain ⟨hwf, hmem, hwin, -, hlast⟩ := h
  exact ⟨hwf, hmem, hwin, State.countInRange_writePolyCount hwf.1 v, hlast⟩

/-- Six bits hold every slot number (R29, R146). -/
theorem lastWrittenOf_slot_toNat (line : Byte) : (lastWrittenOf line).slot.toNat = line.toNat % 48 := by
  rw [lastWrittenOf, BitVec.toNat_ofNat]
  omega

/-- The engine step keeps the invariant. -/
theorem State.Inv.engineStep {s : State} (h : s.Inv) : s.engineStep.Inv := by
  obtain ⟨hwf, hmem, hwin, hcount, -⟩ := h
  exact ⟨hwf, hmem, hwin, hcount, lastWrittenOf_slot_toNat s.pendLine⟩

/-- Every effect of a port event keeps the invariant: reset, a PRAM write and a POLY_COUNT write have their own reasons, and
no other effect writes a field the invariant speaks of. -/
theorem HostEffect.keeps_inv {e : PortEvent} {s t : State} (heff : HostEffect e s t) (h : s.Inv) : t.Inv := by
  cases heff with
  | reset => exact State.inv_resetInput h.1
  | counted v => exact h.writePolyCount v
  | stored a v _ _ hlo hhi hal => exact h.writePram v hlo hhi hal
  | _ => exact h.congr rfl rfl rfl rfl

/-- Settles O28, by the three kinds of step: the engine step, no step, and a host step's effect. -/
theorem invariantKept : Obligations.InvariantKept := by
  intro s t h hstep
  rcases step_cases hstep with ⟨-, rfl⟩ | ⟨-, -, rfl⟩ | ⟨e, rest, -, heff⟩
  · exact h.engineStep
  · exact h
  · exact heff.keeps_inv (h.congr rfl rfl rfl rfl : (s.takeEvent rest).Inv)

end Sys2Proof.Machine
end

section
/-! PROOFS. fl is the nearest binary32 value (O43). A non-zero q is measured in units of the last place fl keeps: fl rounds q
to a whole number of units, and a binary32 value is either a whole number of units or too small to be as near. -/

namespace Sys2Proof.Machine

/-- A binary32 value, its powers of two written as Mathlib writes them. -/
theorem isBinary32_iff {v : ℚ} :
    IsBinary32 v ↔ ∃ (m e : Int), m.natAbs < 2 ^ 24 ∧ -149 ≤ e ∧ v = (m : ℚ) * (2 : ℚ) ^ e := by
  simp only [IsBinary32, pow2_eq_zpow]

/-- The significand may also be 2^24 itself: half of it goes with the next exponent. -/
theorem isBinary32_of_natAbs_le {n e : Int} (hn : n.natAbs ≤ 2 ^ 24) (he : -149 ≤ e) :
    IsBinary32 ((n : ℚ) * (2 : ℚ) ^ e) := by
  rw [isBinary32_iff]
  by_cases hlt : n.natAbs < 2 ^ 24
  · exact ⟨n, e, hlt, he, rfl⟩
  · obtain ⟨m, rfl⟩ : ∃ m, n = m * 2 := ⟨n / 2, by omega⟩
    refine ⟨m, e + 1, by omega, by omega, ?_⟩
    rw [zpow_add_one₀ (by norm_num)]
    push_cast
    ring

/-! ## Units of the last place -/

/-- The exponent of the last place `fl q` keeps, as `fl` chooses it (`fl_eq_units`). -/
def lastPlaceExponent (q : ℚ) : Int := max (binaryExponent q - 23) (-149)

/-- The last place `fl q` keeps. -/
def lastPlace (q : ℚ) : ℚ := (2 : ℚ) ^ lastPlaceExponent q

theorem lastPlace_pos (q : ℚ) : 0 < lastPlace q := zpow_pos (by norm_num) _

theorem lastPlaceExponent_ge (q : ℚ) : -149 ≤ lastPlaceExponent q := le_max_right _ _

theorem fl_eq_units {q : ℚ} (h : q ≠ 0) : fl q = (roundHalfEven (q / lastPlace q) : ℚ) * lastPlace q := fl_eq h

/-- A distance from `q` to a whole number of units, counted in units. -/
theorem abs_sub_units (q : ℚ) (n : Int) : |q - n * lastPlace q| = |q / lastPlace q - n| * lastPlace q := by
  have hpos := lastPlace_pos q
  have hq : q - n * lastPlace q = (q / lastPlace q - n) * lastPlace q := by field_simp
  rw [hq, abs_mul, abs_of_pos hpos]

/-- A non-zero rational is less than 2^24 of its units. -/
theorem abs_div_lastPlace_lt {q : ℚ} (h : q ≠ 0) : |q / lastPlace q| < 2 ^ 24 := by
  have hpos := lastPlace_pos q
  rw [abs_div, abs_of_pos hpos, div_lt_iff₀ hpos]
  calc |q| < (2 : ℚ) ^ (binaryExponent q + 1) := (binaryExponent_bounds h).2
    _ ≤ (2 : ℚ) ^ (24 + lastPlaceExponent q) := zpow_le_zpow_right₀ (by norm_num) (by unfold lastPlaceExponent; omega)
    _ = 2 ^ 24 * lastPlace q := by rw [zpow_add₀ (by norm_num), lastPlace]; norm_num

/-- Rounding to an integer does not pass an integer bound. -/
theorem natAbs_roundHalfEven_le {q : ℚ} {b : Nat} (h : |q| < b) : (roundHalfEven q).natAbs ≤ b := by
  have hnear := abs_le.mp (abs_sub_roundHalfEven_le q)
  have hq := abs_lt.mp h
  have hlt : (roundHalfEven q : ℚ) < (b + 1 : Int) := by push_cast; linarith
  have hgt : ((-b - 1 : Int) : ℚ) < roundHalfEven q := by push_cast; linarith
  have := Int.cast_lt.mp hlt
  have := Int.cast_lt.mp hgt
  omega

/-- No whole number of units is nearer than fl. -/
theorem abs_sub_fl_le_units {q : ℚ} (h : q ≠ 0) (n : Int) : |q - fl q| ≤ |q - n * lastPlace q| := by
  rw [fl_eq_units h, abs_sub_units, abs_sub_units]
  exact mul_le_mul_of_nonneg_right (roundHalfEven_nearest _ n) (lastPlace_pos q).le

/-! ## The binary32 values beside q -/

/-- Where the last place is 23 places below the leading one, the power of two `q` reaches is 2^23 units. -/
theorem zpow_binaryExponent_eq_units {q : ℚ} (hunit : lastPlaceExponent q = binaryExponent q - 23) :
    (2 : ℚ) ^ binaryExponent q = 2 ^ 23 * lastPlace q := by
  rw [show binaryExponent q = 23 + lastPlaceExponent q by omega, zpow_add₀ (by norm_num), lastPlace]
  norm_num

/-- So fl is at least as near as that power, taken with `q`'s sign. -/
theorem abs_sub_fl_le_sub_zpow {q : ℚ} (h : q ≠ 0) (hunit : lastPlaceExponent q = binaryExponent q - 23) :
    |q - fl q| ≤ |q| - (2 : ℚ) ^ binaryExponent q := by
  have hle := (binaryExponent_bounds h).1
  have hpow := zpow_binaryExponent_eq_units hunit
  rcases lt_or_gt_of_ne h with hneg | hpos
  · rw [abs_of_neg hneg] at hle ⊢
    calc |q - fl q| ≤ |q - (-2 ^ 23 : Int) * lastPlace q| := abs_sub_fl_le_units h _
      _ = |q + (2 : ℚ) ^ binaryExponent q| := by rw [hpow]; push_cast; ring_nf
      _ = -q - (2 : ℚ) ^ binaryExponent q := by rw [abs_of_nonpos (by linarith), neg_add']
  · rw [abs_of_pos hpos] at hle ⊢
    calc |q - fl q| ≤ |q - (2 ^ 23 : Int) * lastPlace q| := abs_sub_fl_le_units h _
      _ = |q - (2 : ℚ) ^ binaryExponent q| := by rw [hpow]; push_cast; rfl
      _ = q - (2 : ℚ) ^ binaryExponent q := abs_of_nonneg (by linarith)

/-- What lies below that power in magnitude is farther from `q` than fl is. -/
theorem abs_sub_fl_lt_of_abs_lt {q v : ℚ} (h : q ≠ 0) (hunit : lastPlaceExponent q = binaryExponent q - 23)
    (hv : |v| < (2 : ℚ) ^ binaryExponent q) : |q - fl q| < |q - v| :=
  calc |q - fl q| ≤ |q| - (2 : ℚ) ^ binaryExponent q := abs_sub_fl_le_sub_zpow h hunit
    _ < |q| - |v| := sub_lt_sub_left hv _
    _ ≤ |q - v| := abs_sub_abs_le_abs_sub q v

/-- A binary32 value is a whole number of `q`'s units, or farther from `q` than fl is. -/
theorem IsBinary32.units_or_farther {q v : ℚ} (h : q ≠ 0) (hv : IsBinary32 v) :
    (∃ n : Int, v = n * lastPlace q) ∨ |q - fl q| < |q - v| := by
  obtain ⟨m, e, hm, he, rfl⟩ := isBinary32_iff.mp hv
  by_cases hle : lastPlaceExponent q ≤ e
  · obtain ⟨k, hk⟩ := Int.le.dest hle
    refine .inl ⟨m * 2 ^ k, ?_⟩
    rw [← hk, zpow_add₀ (by norm_num), lastPlace, zpow_natCast]
    push_cast
    ring
  · have hunit : lastPlaceExponent q = binaryExponent q - 23 := by unfold lastPlaceExponent at hle ⊢; omega
    refine .inr (abs_sub_fl_lt_of_abs_lt h hunit ?_)
    have hm' : |(m : ℚ)| < 2 ^ 24 := by rw [← Int.cast_abs, Int.abs_eq_natAbs]; exact_mod_cast hm
    have hpos : (0 : ℚ) < (2 : ℚ) ^ e := zpow_pos (by norm_num) _
    calc |(m : ℚ) * (2 : ℚ) ^ e| = |(m : ℚ)| * (2 : ℚ) ^ e := by rw [abs_mul, abs_of_pos hpos]
      _ < 2 ^ 24 * (2 : ℚ) ^ e := mul_lt_mul_of_pos_right hm' hpos
      _ = (2 : ℚ) ^ (24 + e) := by rw [zpow_add₀ (by norm_num)]; norm_num
      _ ≤ (2 : ℚ) ^ binaryExponent q := zpow_le_zpow_right₀ (by norm_num) (by omega)

/-! ## fl -/

theorem isBinary32_fl (q : ℚ) : IsBinary32 (fl q) := by
  by_cases h : q = 0
  · exact isBinary32_iff.mpr ⟨0, 0, by norm_num, by norm_num, by simp [h]⟩
  · rw [fl_eq_units h]
    have hn := natAbs_roundHalfEven_le (b := 2 ^ 24) (by exact_mod_cast abs_div_lastPlace_lt h)
    exact isBinary32_of_natAbs_le hn (lastPlaceExponent_ge q)

/-- No binary32 value is nearer than fl. -/
theorem fl_nearest (q : ℚ) {v : ℚ} (hv : IsBinary32 v) : |q - fl q| ≤ |q - v| := by
  by_cases h : q = 0
  · simp [h]
  · rcases hv.units_or_farther h with ⟨n, rfl⟩ | hfar
    · exact abs_sub_fl_le_units h n
    · exact hfar.le

/-- Where another binary32 value is as near, the two are neighboring whole numbers of units, and fl's is even. -/
theorem fl_tie {q v : ℚ} (hv : IsBinary32 v) (hne : v ≠ fl q) (htie : |q - v| = |q - fl q|) :
    ∃ k : Int, fl q = 2 * (k : ℚ) * |fl q - v| := by
  by_cases h : q = 0
  · exact absurd (by simpa [h] using htie) (by simpa [h] using hne)
  rcases hv.units_or_farther h with ⟨n, rfl⟩ | hfar
  · have hpos := lastPlace_pos q
    rw [fl_eq_units h] at hne htie ⊢
    rw [abs_sub_units, abs_sub_units, mul_left_inj' hpos.ne'] at htie
    obtain ⟨heven, hone⟩ := roundHalfEven_tie (fun he => hne (by rw [he])) htie
    obtain ⟨k, hk⟩ := Int.dvd_of_emod_eq_zero heven
    refine ⟨k, ?_⟩
    rw [← sub_mul, abs_mul, hone, abs_of_pos hpos, one_mul, hk]
    push_cast
    rfl
  · exact absurd htie hfar.ne'

/-- Settles O43: fl's value is binary32, nearest, and even at a tie. -/
theorem flIsNearestBinary32 : Obligations.FlIsNearestBinary32 := fun q =>
  ⟨isBinary32_fl q, fun _ hv => fl_nearest q hv, fun _ hv hne htie => fl_tie hv hne htie⟩

end Sys2Proof.Machine
end

section
/-! PROOFS. The registers over one step: the parameters (O30), the flags of STATUS (O13 to O16), the line cache and ZBUF (O24),
and the registers right after reset (O20, O29). Each rule is first one about a host step's effect. -/

namespace Sys2Proof.Machine

/-! ## Reset -/

/-- Settles O20, by reading each register of the reset state. -/
theorem resetRegisters : Obligations.ResetRegisters := by
  unfold Obligations.ResetRegisters
  decide

/-- The default parameters are legal. -/
theorem wellFormed_default : Params.default.WellFormed := by
  decide

/-- Settles O29, from the invariant of any state after reset with legal parameters. -/
theorem invariantAtReset : Obligations.InvariantAtReset := State.inv_powerOn wellFormed_default 0

/-! ## What every host effect leaves alone -/

/-- No effect changes the parameters, reset included (R19). -/
theorem HostEffect.params_eq {e : PortEvent} {s t : State} (heff : HostEffect e s t) : t.params = s.params := by
  cases heff <;> rfl

/-- Only reset, among the host's effects, writes the line cache or ZBUF (R43). -/
theorem HostEffect.lineBuffers_eq {e : PortEvent} {s t : State} (heff : HostEffect e s t) (hr : e ≠ .reset) :
    t.lc = s.lc ∧ t.zbuf = s.zbuf := by
  cases heff with
  | reset he => exact absurd he hr
  | _ => exact ⟨rfl, rfl⟩

/-- Only reset, among the host's effects, changes LW_VALID (R26). -/
theorem HostEffect.lwValid_eq {e : PortEvent} {s t : State} (heff : HostEffect e s t) (hr : e ≠ .reset) :
    t.status.lwValid = s.status.lwValid := by
  cases heff with
  | reset he => exact absurd he hr
  | _ => rfl

/-- No error clears a sticky bit, its own or another's (R27). -/
theorem Status.record_sticky (err : HostError) (f : Status) :
    (f.illcmd = true → (f.record err).illcmd = true) ∧ (f.cmdovf = true → (f.record err).cmdovf = true) ∧
      (f.buserr = true → (f.record err).buserr = true) := by
  cases err <;> simp

/-- Only reset and a STATUS write, among the host's effects, clear a sticky bit (R27). -/
theorem HostEffect.sticky {e : PortEvent} {s t : State} (heff : HostEffect e s t) (hr : e ≠ .reset)
    (hw : ∀ v, e ≠ s.writeAt 0x8 4 v) :
    (s.status.illcmd = true → t.status.illcmd = true) ∧ (s.status.cmdovf = true → t.status.cmdovf = true) ∧
      (s.status.buserr = true → t.status.buserr = true) := by
  cases heff with
  | reset he => exact absurd he hr
  | cleared v he => exact absurd he (hw v)
  | refusedRead | refusedWrite | overrun | illegal => exact Status.record_sticky _ _
  | _ => exact ⟨id, id, id⟩

/-- A host effect after which BUSY is 1 left it so or accepted a DRAW_SCANLINE (R25). -/
theorem HostEffect.busy_cases {e : PortEvent} {s t : State} (heff : HostEffect e s t) (hb : t.status.busy = true) :
    s.status.busy = true ∨
      (s.status.busy = false ∧ ∃ w line, e = s.writeAt 0x4 4 w ∧ decode w = .command (.drawScanline line)) := by
  cases heff with
  | reset => exact absurd hb (by simp [State.powerOn])
  | accepted w line he hidle hd => exact .inr ⟨hidle, w, line, he, hd⟩
  | _ => exact .inl (by simpa using hb)

/-! ## Steps with and without a reset -/

/-- Everything a step can do when it is no reset. -/
theorem step_cases_of_no_reset {s t : State} (h : step s = .next t) (hr : ∀ rest, ¬ s.Presents .reset rest) :
    (s.engineDue = true ∧ t = s.engineStep) ∨
    (s.engineDue = false ∧ t = s) ∨
    ∃ e rest, s.Presents e rest ∧ e ≠ .reset ∧ HostEffect e (s.takeEvent rest) t := by
  rcases step_cases h with hengine | ⟨hd, -, ht⟩ | ⟨e, rest, hp, heff⟩
  · exact .inl hengine
  · exact .inr (.inl ⟨hd, ht⟩)
  · exact .inr (.inr ⟨e, rest, hp, fun he => hr rest (he ▸ hp), heff⟩)

/-- The step of a reset leaves every flag 0 (R42). -/
theorem status_of_step_reset {s t : State} {rest : List PortEvent} (hp : s.Presents .reset rest) (h : step s = .next t) :
    t.status = ⟨false, false, false, false, false⟩ := by
  rw [step_presents hp] at h
  injection h with h
  rw [← h]
  rfl

/-- A flag that is 1 after a step shows that the step was no reset. -/
theorem no_reset_of_flag {s t : State} {flag : Status → Bool} (h : step s = .next t) (hflag : flag t.status = true)
    (hzero : flag ⟨false, false, false, false, false⟩ = false) (rest : List PortEvent) : ¬ s.Presents .reset rest := by
  intro hp
  rw [status_of_step_reset hp h, hzero] at hflag
  exact Bool.false_ne_true hflag

/-- A DRAW_SCANLINE written to CMD while BUSY = 0 is accepted (R143). -/
theorem step_accept {s : State} {w : Word} {line : Byte} {rest : List PortEvent} (hidle : s.status.busy = false)
    (hp : s.Presents (s.writeAt 0x4 4 w) rest) (hd : decode w = .command (.drawScanline line)) :
    step s = .next ((s.takeEvent rest).accept line) := by
  rw [step_writeAt_register hp (by norm_num) (by norm_num)]
  have hcmd : registerAt 0x4 = .cmd := rfl
  rw [hcmd, registerWrite, writeCommand_eq]
  simp [hidle, hd]

/-! ## The obligations -/

/-- Settles O30: the engine step and no step keep them by definition, a host effect by `HostEffect.params_eq`. -/
theorem parametersConstant : Obligations.ParametersConstant := by
  intro s t h
  rcases step_cases h with ⟨-, rfl⟩ | ⟨-, -, rfl⟩ | ⟨e, rest, -, heff⟩
  · rfl
  · rfl
  · exact heff.params_eq

/-- Settles O13, by the kinds of step that are no reset; completion leaves the three bits alone. -/
theorem stickyBitsStay : Obligations.StickyBitsStay := by
  intro s t h hw hr
  rcases step_cases_of_no_reset h hr with ⟨-, rfl⟩ | ⟨-, rfl⟩ | ⟨e, rest, hp, he, heff⟩
  · exact ⟨id, id, id⟩
  · exact ⟨id, id, id⟩
  · exact heff.sticky he fun v hv => hw rest v (hv ▸ hp)

/-- STATUS as read after a write of `v`, bit by bit (R24). -/
theorem Status.read_clear_getLsbD (f : Status) (v : Word) {n : Nat} (hn : n < 32) :
    (f.clear v).read.getLsbD n = (f.read.getLsbD n && !((n == 8 || n == 9 || n == 10) && v.getLsbD n)) := by
  rw [Status.read_getLsbD _ n hn, Status.read_getLsbD _ n hn]
  by_cases h : n = 8 ∨ n = 9 ∨ n = 10
  · rcases h with rfl | rfl | rfl <;> simp
  · rw [not_or, not_or] at h
    obtain ⟨h8, h9, h10⟩ := h
    simp [beq_false_of_ne h8, beq_false_of_ne h9, beq_false_of_ne h10]

/-- Settles O14, from the register write and STATUS read bit by bit. -/
theorem statusWriteClears : Obligations.StatusWriteClears := by
  intro s v rest hp
  have hstep : step s = .next ((s.takeEvent rest).clearErrors v) :=
    step_writeAt_register hp (by norm_num) (by norm_num)
  exact ⟨_, hstep, fun n hn => Status.read_clear_getLsbD s.status v hn, rfl⟩

/-- Settles O15: what BUSY = 1 after the step says of the step, and the two ways to leave it 1. -/
theorem busyChangesOnly : Obligations.BusyChangesOnly := by
  intro s t h
  constructor
  · intro hb
    have hr := no_reset_of_flag (flag := Status.busy) h hb rfl
    rcases step_cases_of_no_reset h hr with ⟨-, rfl⟩ | ⟨hd, rfl⟩ | ⟨e, rest, hp, -, heff⟩
    · exact absurd hb (by simp)
    · exact .inr ⟨hb, hd, hr⟩
    · rcases heff.busy_cases hb with hbusy | ⟨hidle, w, line, rfl, hw⟩
      · exact .inr ⟨hbusy, hp.1, hr⟩
      · exact .inl ⟨hidle, rest, w, line, hp, hw⟩
  · rintro (⟨hidle, rest, w, line, hp, hw⟩ | ⟨hbusy, hd, hr⟩)
    · rw [step_accept hidle hp hw] at h
      injection h with h
      rw [← h]
      rfl
    · rcases step_cases_of_no_reset h hr with ⟨hd', -⟩ | ⟨-, rfl⟩ | ⟨e, rest, -, he, heff⟩
      · exact absurd hd' (by simp [hd])
      · exact hbusy
      · exact (heff.keeps_busy hbusy he).1

/-- Settles O16, by the kinds of step; a step after which LW_VALID is 1 is no reset. -/
theorem lwValidChangesOnly : Obligations.LwValidChangesOnly := by
  refine ⟨rfl, fun s t h => ⟨fun hv => ?_, ?_⟩⟩
  · have hr := no_reset_of_flag (flag := Status.lwValid) h hv rfl
    rcases step_cases_of_no_reset h hr with ⟨hd, -⟩ | ⟨-, rfl⟩ | ⟨e, rest, -, he, heff⟩
    · exact .inl hd
    · exact .inr ⟨hv, hr⟩
    · exact .inr ⟨(heff.lwValid_eq he).symm.trans hv, hr⟩
  · rintro (hd | ⟨hv, hr⟩)
    · rw [step_engine hd] at h
      injection h with h
      rw [← h]
      rfl
    · rcases step_cases_of_no_reset h hr with ⟨-, rfl⟩ | ⟨-, rfl⟩ | ⟨e, rest, -, he, heff⟩
      · rfl
      · exact hv
      · exact (heff.lwValid_eq he).trans hv

/-- The engine step writes no slot but PEND_LINE mod 48 (R37, R156). -/
theorem State.engineStep_lc_other {s : State} {slot : Fin 48} (h : slot ≠ slotOf s.pendLine) :
    s.engineStep.lc[slot] = s.lc[slot] := by
  have hval : (slotOf s.pendLine).val ≠ slot.val := fun e => h (Fin.ext e.symm)
  simp [hval]

/-- Settles O24: a host effect that is no reset writes neither, and the engine step writes one slot. -/
theorem lineCacheWriters : Obligations.LineCacheWriters := by
  intro s t h hr
  rcases step_cases_of_no_reset h hr with ⟨hd, rfl⟩ | ⟨-, rfl⟩ | ⟨e, rest, -, he, heff⟩
  · refine ⟨fun slot hne => ⟨hd, busy_of_engineDue hd, ?_⟩, fun _ => hd⟩
    have hslot : slot = slotOf s.pendLine := not_imp_comm.mp State.engineStep_lc_other hne
    rw [hslot]
    rfl
  · exact ⟨fun _ hne => absurd rfl hne, fun hne => absurd rfl hne⟩
  · obtain ⟨hlc, hzbuf⟩ := heff.lineBuffers_eq he
    exact ⟨fun slot hne => absurd (by rw [hlc]; rfl) hne, fun hne => absurd hzbuf hne⟩

end Sys2Proof.Machine
end

section
/-! PROOFS. The block never reads LC_LAST_CONSUMED (O19): every operation of a step gives the same answer, up to that register,
from two states that differ only there. -/

namespace Sys2Proof.Machine

/-! ## Two states that differ only in LC_LAST_CONSUMED -/

/-- `s` with another value in LC_LAST_CONSUMED. -/
def State.withLastConsumed (c : Byte) (s : State) : State := { s with lastConsumed := c }

/-- The operation answers a state and the same state with another LC_LAST_CONSUMED alike, up to that register. -/
def IgnoresLastConsumed (f : State → Result) (s : State) : Prop :=
  ∀ c, ∃ t c', f s = .next t ∧ f (s.withLastConsumed c) = .next (t.withLastConsumed c')

/-! ## Reads -/

/-- No other register's value depends on it (R147). -/
theorem State.registerRead_withLastConsumed {r : Register} (h : r ≠ .lastConsumed) (c : Byte) (s : State) :
    (s.withLastConsumed c).registerRead r = s.registerRead r := by
  cases r with
  | lastConsumed => exact absurd rfl h
  | _ => rfl

theorem State.noteBusyRead_withLastConsumed (slot : Fin 48) (c : Byte) (s : State) :
    (s.withLastConsumed c).noteBusyRead slot = (s.noteBusyRead slot).withLastConsumed c := by
  have hdrawn : (s.withLastConsumed c).beingDrawn slot = s.beingDrawn slot := rfl
  unfold State.noteBusyRead
  rw [hdrawn]
  split <;> rfl

/-- A read that is not a read of LC_LAST_CONSUMED (R147, R149, R150). -/
theorem State.hostRead_withLastConsumed {off : Offset} {width : Nat} (h : ¬ (off.toNat = 0x14 ∧ width = 4)) (c : Byte)
    (s : State) : (s.withLastConsumed c).hostRead off width = (s.hostRead off width).withLastConsumed c := by
  have hparams : (s.withLastConsumed c).params = s.params := rfl
  unfold State.hostRead
  rw [hparams]
  rcases readTarget_cases s.params off width with ⟨ht, hlt, hwidth, hal⟩ | ⟨ht, -⟩ | ⟨ht, -⟩ | ⟨ht, -⟩ <;> rw [ht]
  · have hne : registerAt off.toNat ≠ .lastConsumed := by
      rcases registerAt_cases hlt hal with ⟨-, hr⟩ | ⟨-, hr⟩ | ⟨-, hr⟩ | ⟨-, hr⟩ | ⟨-, hr⟩ | ⟨ha, -⟩
      case inr.inr.inr.inr.inr => exact absurd ⟨ha, hwidth⟩ h
      all_goals rw [hr]; decide
    simp only [State.registerRead_withLastConsumed hne]
    rfl
  · simp only [State.noteBusyRead_withLastConsumed]
    rfl
  · rfl
  · rfl

/-! ## Writes -/

theorem writeCommand_ignoresLastConsumed (w : Word) (s : State) : IgnoresLastConsumed (writeCommand w) s := by
  intro c
  refine ⟨_, c, writeCommand_eq w s, (writeCommand_eq w _).trans ?_⟩
  have hbusy : (s.withLastConsumed c).status = s.status := rfl
  rw [hbusy]
  split
  · rfl
  · split <;> rfl

theorem registerWrite_ignoresLastConsumed (r : Register) (v : Word) (s : State) :
    IgnoresLastConsumed (registerWrite r v) s := by
  cases r with
  | cmd => exact writeCommand_ignoresLastConsumed v s
  | lastConsumed => exact fun c => ⟨_, v.extractLsb' 0 8, rfl, rfl⟩
  | _ => exact fun c => ⟨_, c, rfl, rfl⟩

theorem hostWrite_ignoresLastConsumed (off : Offset) (width : Nat) (v : Word) (s : State) :
    IgnoresLastConsumed (hostWrite off width v) s := by
  intro c
  have hparams : (s.withLastConsumed c).params = s.params := rfl
  unfold hostWrite
  rw [hparams]
  rcases writeTarget_cases s.params off width with ⟨ht, -⟩ | ⟨ht, -⟩ | ⟨ht, -⟩ <;> rw [ht]
  · exact registerWrite_ignoresLastConsumed (registerAt off.toNat) v s c
  · exact ⟨_, c, rfl, rfl⟩
  · exact ⟨_, c, rfl, rfl⟩

/-! ## Events and steps -/

/-- Every event but the host's read of the register (R30). -/
theorem portEvent_ignoresLastConsumed {e : PortEvent} {s : State} (h : e ≠ s.readAt 0x14 4) :
    IgnoresLastConsumed (portEvent e) s := by
  intro c
  have hparams : (s.withLastConsumed c).params = s.params := rfl
  cases e with
  | reset => exact ⟨_, 0, rfl, rfl⟩
  | read addr width =>
    simp only [portEvent, hparams]
    rcases ho : offset? s.params addr with _ | off
    · exact ⟨_, c, rfl, rfl⟩
    have hne : ¬ (off.toNat = 0x14 ∧ width = 4) := by
      rintro ⟨hoff, rfl⟩
      exact h (by rw [offset?_eq_some ho, hoff])
    exact ⟨_, c, rfl, congrArg _ (State.hostRead_withLastConsumed hne c s)⟩
  | write addr width v =>
    simp only [portEvent, hparams]
    rcases ho : offset? s.params addr with _ | off
    · exact ⟨_, c, rfl, rfl⟩
    · exact hostWrite_ignoresLastConsumed off width v s c

/-- Every step but the host's read of the register (R30). -/
theorem step_ignoresLastConsumed {s : State} (h : ∀ rest, ¬ s.Presents (s.readAt 0x14 4) rest) :
    IgnoresLastConsumed step s := by
  intro c
  by_cases hd : s.engineDue = true
  · exact ⟨_, c, step_engine hd, step_engine (s := s.withLastConsumed c) hd⟩
  rw [Bool.not_eq_true] at hd
  rcases hp : s.port with _ | ⟨e, rest⟩
  · refine ⟨s, c, ?_, ?_⟩
    · simp [step, hd, hp]
    · have hd' : (s.withLastConsumed c).engineDue = false := hd
      have hp' : (s.withLastConsumed c).port = [] := hp
      simp [step, hd', hp']
  · have hne : e ≠ (s.takeEvent rest).readAt 0x14 4 := fun he => h rest ⟨hd, he ▸ hp⟩
    obtain ⟨t, c', ht, ht'⟩ := portEvent_ignoresLastConsumed hne c
    exact ⟨t, c', (step_presents ⟨hd, hp⟩).trans ht, (step_presents (s := s.withLastConsumed c) ⟨hd, hp⟩).trans ht'⟩

/-- Only the host's write of it and reset, among the host's effects, change LC_LAST_CONSUMED (R30). -/
theorem HostEffect.lastConsumed_eq {e : PortEvent} {s t : State} (heff : HostEffect e s t) (hr : e ≠ .reset)
    (hw : ∀ v, e ≠ s.writeAt 0x14 4 v) : t.lastConsumed = s.lastConsumed := by
  cases heff with
  | reset he => exact absurd he hr
  | consumed v he => exact absurd he (hw v)
  | _ => rfl

/-- Settles O19: the two runs from `step_ignoresLastConsumed`, the writers from the kinds of step. -/
theorem lastConsumedIsHostScratch : Obligations.LastConsumedIsHostScratch := by
  constructor
  · intro s t c h hread
    obtain ⟨u, c', hu, hu'⟩ := step_ignoresLastConsumed hread c
    rw [h] at hu
    injection hu with hu
    exact ⟨c', hu ▸ hu'⟩
  · intro s t h hne
    rcases step_cases h with ⟨-, rfl⟩ | ⟨-, -, rfl⟩ | ⟨e, rest, hp, heff⟩
    · exact absurd rfl hne
    · exact absurd rfl hne
    · by_contra hcon
      rw [not_or] at hcon
      obtain ⟨hw, hr⟩ := hcon
      exact hne (heff.lastConsumed_eq (fun he => hr ⟨rest, he ▸ hp⟩) fun v hv => hw ⟨rest, v, hv ▸ hp⟩)

end Sys2Proof.Machine
end

section
/-! PROOFS. The five writes of VTX (O26): a run of PRAM writes from an idle block, and the offsets and words of one vertex. -/

namespace Sys2Proof.Machine

/-! ## A run of PRAM writes -/

/-- One PRAM word write, its offset and its value. -/
abbrev WordWrite := Nat × Word

/-- A PRAM write the block performs: aligned, and in the window of its entries (R45, R49). -/
abbrev WordWrite.Legal (p : Params) (w : WordWrite) : Prop :=
  w.1 < 2 ^ 19 ∧ 0x40000 ≤ w.1 ∧ w.1 < 0x40000 + 128 * p.maxPolys ∧ w.1 % 4 = 0

/-- An idle block performs a rising list of presented PRAM writes one by one: each word reads back as written, and a word
clear of all of them keeps its value. -/
theorem runs_writes (ws : List WordWrite) (s : State) (hidle : s.status.busy = false)
    (hport : s.port = ws.map fun w => s.writeAt w.1 4 w.2) (hlegal : ∀ w ∈ ws, WordWrite.Legal s.params w)
    (hrise : ws.Pairwise fun v w => v.1 + 4 ≤ w.1) :
    ∃ t, Runs ws.length s t ∧ t.port = [] ∧ (∀ w ∈ ws, t.pramWord w.1 = w.2) ∧
      ∀ b, (∀ w ∈ ws, b + 4 ≤ w.1) → t.pramWord b = s.pramWord b := by
  induction ws generalizing s with
  | nil => exact ⟨s, rfl, hport, by simp, fun _ _ => rfl⟩
  | cons w ws ih =>
    rw [List.forall_mem_cons] at hlegal
    obtain ⟨⟨hwindow, hlo, hhi, hal⟩, hrest⟩ := hlegal
    obtain ⟨hfirst, hrise⟩ := List.pairwise_cons.mp hrise
    have hstep := step_writeAt_pram ⟨engineDue_idle hidle, hport⟩ hwindow hlo hhi hal
    obtain ⟨t, hruns, hempty, hwritten, hframe⟩ :=
      ih ((s.takeEvent (ws.map fun v => s.writeAt v.1 4 v.2)).writePram w.1 w.2) hidle rfl hrest hrise
    refine ⟨t, ⟨_, hstep, hruns⟩, hempty, List.forall_mem_cons.mpr ⟨?_, hwritten⟩, fun b hb => ?_⟩
    · rw [hframe w.1 hfirst, State.pramWord_writePram_same]
    · obtain ⟨hbw, hb⟩ := List.forall_mem_cons.mp hb
      rw [hframe b hb, State.pramWord_writePram_other (.inl hbw)]
      rfl

/-! ## The writes of one vertex -/

/-- The writes of VTX: X, Y, Z, W and COLOR from the slot's first word on (R33, R83). -/
def vertexWrites (i j : Nat) (x y z w : Int) (c : Nat) : List WordWrite :=
  let at0 := 0x40000 + 128 * i + 4 + 20 * j
  [(at0, BitVec.ofInt 32 x), (at0 + 4, BitVec.ofInt 32 y), (at0 + 8, BitVec.ofInt 32 z), (at0 + 12, BitVec.ofInt 32 w),
    (at0 + 16, BitVec.ofNat 32 c)]

/-- A number's unsigned word is its two's complement word (R82). -/
theorem ofNat_wordNumber (v : Int) : BitVec.ofNat 32 (wordNumber v) = BitVec.ofInt 32 v := by
  rw [wordNumber, BitVec.ofNat_toNat, BitVec.setWidth_eq]

/-- The accesses of VTX are these writes. -/
theorem filterMap_accessOf_vtx (s : State) (i j : Nat) (x y z w : Int) (c : Nat) :
    (expand (.vtx i j x y z w c)).filterMap (accessOf s.params) =
      (vertexWrites i j x y z w c).map fun ww => s.writeAt ww.1 4 ww.2 := by
  simp [expand, accessOf, vertexWrites, ofNat_wordNumber]

/-- All five lie in their entry, which lies in PRAM (R45, R48). -/
theorem vertexWrites_legal {p : Params} (hp : p.PolysInRange) {i j : Nat} (hi : i < p.maxPolys) (hj : j < 4)
    (x y z w : Int) (c : Nat) : ∀ ww ∈ vertexWrites i j x y z w c, WordWrite.Legal p ww := by
  obtain ⟨-, hmax⟩ := hp
  simp only [vertexWrites, List.forall_mem_cons, List.not_mem_nil, false_imp_iff, implies_true, and_true, WordWrite.Legal]
  omega

theorem vertexWrites_rise (i j : Nat) (x y z w : Int) (c : Nat) :
    (vertexWrites i j x y z w c).Pairwise fun v w => v.1 + 4 ≤ w.1 := by
  simp [vertexWrites]

/-- An int32 is its word read back (R10, R80). -/
theorem toInt_ofInt_of_fitsInt32 {v : Int} (h : fitsInt32 v) : (BitVec.ofInt 32 v).toInt = v :=
  BitVec.toInt_ofInt_eq_self (by norm_num) h.1 h.2

/-- A state that holds the five words reads as the vertex (R33). -/
theorem vertexSlot_of_vertexWrites {t : State} {i j : Nat} {x y z w : Int} {c : Nat}
    (h : ∀ ww ∈ vertexWrites i j x y z w c, t.pramWord ww.1 = ww.2) :
    t.vertexSlot i j = ⟨BitVec.ofInt 32 x, BitVec.ofInt 32 y, BitVec.ofInt 32 z, BitVec.ofInt 32 w, BitVec.ofNat 16 c⟩ := by
  simp only [vertexWrites, List.forall_mem_cons, List.not_mem_nil, false_imp_iff, implies_true, and_true] at h
  obtain ⟨hx, hy, hz, hw, hc⟩ := h
  have hword (k : Nat) : t.entryWord i (k + 1 + 5 * j) = t.pramWord (0x40000 + 128 * i + 4 + 20 * j + 4 * k) := by
    rw [State.entryWord_eq]
    congr 1
    omega
  rw [State.vertexSlot_eq]
  simp [hword 0, hword 1, hword 2, hword 3, hword 4, hx, hy, hz, hw, hc]

/-- Settles O26, from the run of the five writes. -/
theorem vtxWritesVertexSlot : Obligations.VtxWritesVertexSlot := by
  intro s i j x y z w c hwf hidle hi hvtx hport
  obtain ⟨-, hj, hx, hy, hz, hw, -⟩ := hvtx
  obtain ⟨t, hruns, hempty, hwritten, -⟩ := runs_writes (vertexWrites i j x y z w c) s hidle
    (hport.trans (filterMap_accessOf_vtx s i j x y z w c)) (vertexWrites_legal hwf.1 hi hj x y z w c)
    (vertexWrites_rise i j x y z w c)
  refine ⟨t, hruns, hempty, ?_⟩
  rw [vertexSlot_of_vertexWrites hwritten]
  exact ⟨toInt_ofInt_of_fitsInt32 hx, toInt_ofInt_of_fitsInt32 hy, toInt_ofInt_of_fitsInt32 hz,
    toInt_ofInt_of_fitsInt32 hw, BitVec.toNat_ofNat c 16⟩

end Sys2Proof.Machine
end

section
/-! PROOFS. A drawn line's pixels (O58): the cleared line has the property, and every write of the pixel loop keeps it. -/

namespace Sys2Proof.Machine

/-- Every pixel is cleared, its depth still the sentinel, or opaque (R38). -/
def LineBuf.ClearedOrOpaque (buf : LineBuf) : Prop :=
  ∀ x : Fin 256, (buf.pixels[x] = clearPixel ∧ buf.depths[x] = zSentinel) ∨ buf.pixels[x].getLsbD 15 = true

theorem LineBuf.clearedOrOpaque_cleared : LineBuf.cleared.ClearedOrOpaque := by
  intro x
  simp [LineBuf.cleared]

/-- A drawn color has bit 15 set (R101, R103). -/
theorem interpolateColor_getLsbD_15 (arith : InterpArith) (min max : Half) (start current stop : Int) :
    (interpolateColor arith min max start current stop).getLsbD 15 = true := by
  simp only [interpolateColor, packColor, BitVec.getLsbD_append]
  simp

/-- One iteration leaves the pixel as it was or gives it a drawn color (R128, R130). -/
theorem LineBuf.ClearedOrOpaque.fillPixel {buf : LineBuf} (h : buf.ClearedOrOpaque) (arith : InterpArith) (line : Int)
    (e : EdgePair) (sp : Span) (y : Fin 256) : (fillPixel arith line e sp buf y).ClearedOrOpaque := by
  intro x
  by_cases hxy : y = x
  · subst hxy
    obtain ⟨hpixel, hdepth⟩ := fillPixel_self arith line e sp buf y
    rw [hpixel, hdepth]
    split
    · exact .inr (interpolateColor_getLsbD_15 ..)
    · exact h y
  · obtain ⟨hpixel, hdepth⟩ := fillPixel_other arith line e sp buf hxy
    rw [hpixel, hdepth]
    exact h x

theorem LineBuf.ClearedOrOpaque.rasterize {buf : LineBuf} (h : buf.ClearedOrOpaque) (arith : InterpArith) (line : Int)
    (e : EdgePair) : (rasterize arith line e buf).ClearedOrOpaque := by
  unfold Machine.rasterize
  split
  · exact h
  · next sp _ => exact List.foldlRecOn sp.pixels _ h fun _ hb y _ => hb.fillPixel arith line e sp y

theorem LineBuf.ClearedOrOpaque.drawPolygon {buf : LineBuf} (h : buf.ClearedOrOpaque) (p : Params) (line : Int)
    (poly : Polygon) : (drawPolygon p line buf poly).ClearedOrOpaque := by
  rw [drawPolygon_eq]
  split
  · exact h
  · exact h.rasterize _ _ _

theorem drawScanline_clearedOrOpaque (p : Params) (line : Byte) (polys : List Polygon) :
    (drawScanline p line polys).ClearedOrOpaque :=
  List.foldlRecOn polys _ LineBuf.clearedOrOpaque_cleared fun _ hb poly _ => hb.drawPolygon p _ poly

/-- Settles O58; the sentinel is 2^31 - 1 (R36). -/
theorem drawnPixelsClearedOrOpaque : Obligations.DrawnPixelsClearedOrOpaque := by
  intro p line polys x
  rcases drawScanline_clearedOrOpaque p line polys x with ⟨hpixel, hdepth⟩ | hopaque
  · exact .inl ⟨hpixel, by rw [hdepth]; rfl⟩
  · exact .inr hopaque

end Sys2Proof.Machine
end

section
/-! PROOFS. Accesses of the window over one step: the refused and the legal ones (O11), the line-cache reads (O23), and the
writers of PRAM (O25). -/

namespace Sys2Proof.Machine

/-! ## Legal accesses and STATUS -/

/-- A legal read leaves every flag alone, whichever region it is performed in (R49). -/
theorem step_readAt_legal_status {s : State} {a width : Nat} {rest : List PortEvent}
    (h : s.Presents (s.readAt a width) rest) (ha : a < 2 ^ 19) (hl : LegalRead s.params a width) :
    ∃ t, step s = .next t ∧ t.status = s.status := by
  rcases hl with ⟨rfl, hal, hreg | ⟨hlo, hhi⟩⟩ | ⟨hwidth, hal, hlo, hhi⟩
  · exact ⟨_, step_readAt_register h hreg hal, rfl⟩
  · exact ⟨_, step_readAt_pram h ha hlo hhi hal, rfl⟩
  · exact ⟨_, step_readAt_lineCache h hlo hhi hwidth hal, State.noteBusyRead_status _ _⟩

/-- Of the registers only CMD and STATUS have writes that change a flag (R148). -/
theorem registerWrite_status {r : Register} (hcmd : r ≠ .cmd) (hstatus : r ≠ .status) (v : Word) (s : State) :
    ∃ t, registerWrite r v s = .next t ∧ t.status = s.status := by
  cases r with
  | cmd => exact absurd rfl hcmd
  | status => exact absurd rfl hstatus
  | _ => exact ⟨_, rfl, rfl⟩

/-- The offsets of CMD and STATUS are theirs alone (R45). -/
theorem registerAt_ne_cmd_status {a : Nat} (h : a < 0x18) (hal : a % 4 = 0) (hcmd : a ≠ 0x4) (hstatus : a ≠ 0x8) :
    registerAt a ≠ .cmd ∧ registerAt a ≠ .status := by
  rcases registerAt_cases h hal with ⟨-, hr⟩ | ⟨ha, -⟩ | ⟨ha, -⟩ | ⟨-, hr⟩ | ⟨-, hr⟩ | ⟨-, hr⟩
  case inr.inl => exact absurd ha hcmd
  case inr.inr.inl => exact absurd ha hstatus
  all_goals rw [hr]; decide

/-- A legal write elsewhere leaves every flag alone (R49). -/
theorem step_writeAt_legal_status {s : State} {a width : Nat} {v : Word} {rest : List PortEvent}
    (h : s.Presents (s.writeAt a width v) rest) (ha : a < 2 ^ 19) (hl : LegalWordAccess s.params a width) (hcmd : a ≠ 0x4)
    (hstatus : a ≠ 0x8) : ∃ t, step s = .next t ∧ t.status = s.status := by
  obtain ⟨rfl, hal, hreg | ⟨hlo, hhi⟩⟩ := hl
  · rw [step_writeAt_register h hreg hal]
    obtain ⟨hr, hr'⟩ := registerAt_ne_cmd_status hreg hal hcmd hstatus
    exact registerWrite_status hr hr' v (s.takeEvent rest)
  · exact ⟨_, step_writeAt_pram h ha hlo hhi hal, rfl⟩

/-- Settles O11: a refused access raises BUSERR, which is STATUS bit 10, and a legal one raises nothing. -/
theorem refusedAccesses : Obligations.RefusedAccesses := by
  intro s a width v rest ha
  refine ⟨fun h hl => step_readAt_refused h ha hl, fun h hl => step_writeAt_refused h ha hl,
    fun h hl => step_readAt_legal_status h ha hl,
    fun h hl hcmd hstatus => step_writeAt_legal_status h ha hl hcmd hstatus, ?_⟩
  rw [Status.read_getLsbD _ 10 (by norm_num)]
  simp

/-! ## Line-cache reads -/

/-- The offset of pixel `x` of a slot lies in that slot (R47). -/
theorem lcSlotAt_pixelOffset (slot : Fin 48) (x : Fin 256) : lcSlotAt (0x10000 + 512 * slot.val + 2 * x.val) = slot := by
  apply Fin.ext
  simp only [lcSlotAt]
  omega

/-- The offset of pixel `x` of a slot lies in that pixel (R47). -/
theorem lcPixelAt_pixelOffset (slot : Fin 48) (x : Fin 256) : lcPixelAt (0x10000 + 512 * slot.val + 2 * x.val) = x := by
  apply Fin.ext
  simp only [lcPixelAt]
  omega

/-- A line-cache read's whole effect on the state: the reply, and at most the draw count. -/
theorem State.reply_noteBusyRead (slot : Fin 48) (v : Word) (s : State) :
    (s.noteBusyRead slot).reply v =
      { s with replies := v :: s.replies, draws := if s.beingDrawn slot then s.draws + 1 else s.draws } := by
  unfold State.noteBusyRead
  split <;> rfl

/-- The step of a line-cache read at a pixel's offset. -/
theorem step_readAt_pixel {s : State} {slot : Fin 48} {x : Fin 256} {width : Nat} {rest : List PortEvent}
    (h : s.Presents (s.readAt (0x10000 + 512 * slot.val + 2 * x.val) width) rest)
    (hwidth : width = 2 ∨ width = 4 ∧ x.val % 2 = 0) :
    step s = .next { s.takeEvent rest with
      replies := s.lineCacheRead (0x10000 + 512 * slot.val + 2 * x.val) width :: s.replies
      draws := if s.beingDrawn slot then s.draws + 1 else s.draws } := by
  rw [step_readAt_lineCache h (by omega) (by omega) (by omega) (by rcases hwidth with rfl | ⟨rfl, hx⟩ <;> omega),
    State.reply_noteBusyRead, lcSlotAt_pixelOffset]
  rfl

/-- What a 2-byte read returns is one pixel, zero-extended (R53). -/
theorem State.lineCacheRead_two_toNat (slot : Fin 48) (x : Fin 256) (s : State) :
    (s.lineCacheRead (0x10000 + 512 * slot.val + 2 * x.val) 2).toNat = (s.pixelRead slot x 0).toNat := by
  rw [State.lineCacheRead, lcSlotAt_pixelOffset, lcPixelAt_pixelOffset, if_pos rfl]
  exact BitVec.toNat_setWidth_of_le (by norm_num)

/-- What a 4-byte read returns is two pixels, the one at the offset low (R53). -/
theorem State.lineCacheRead_four_toNat (slot : Fin 48) (x : Fin 256) (s : State) :
    (s.lineCacheRead (0x10000 + 512 * slot.val + 2 * x.val) 4).toNat =
      (s.pixelRead slot x 0).toNat + (s.pixelRead slot (x + 1) 1).toNat * 2 ^ 16 := by
  rw [State.lineCacheRead, lcSlotAt_pixelOffset, lcPixelAt_pixelOffset, if_neg (by norm_num)]
  exact (toNat_append_eq _ _).trans (Nat.add_comm _ _)

/-- No slot is being drawn while BUSY = 0, and none but PEND_LINE mod 48 otherwise (R37, R150). -/
theorem State.beingDrawn_eq_false {slot : Fin 48} {s : State}
    (h : s.status.busy = false ∨ slot.val ≠ s.pendLine.toNat % 48) : s.beingDrawn slot = false := by
  rcases h with hidle | hslot
  · simp [State.beingDrawn, hidle]
  · have hne : slot ≠ slotOf s.pendLine := fun e => hslot (congrArg Fin.val e)
    simp [State.beingDrawn, hne]

/-- A read sees the pixels of a slot that is not being drawn as they are (R150). -/
theorem State.pixelRead_of_not_beingDrawn {slot : Fin 48} {s : State} (h : s.beingDrawn slot = false) (x : Fin 256)
    (k : Nat) : s.pixelRead slot x k = s.lc[slot][x] := by
  simp [State.pixelRead, h]

/-- Settles O23, from the step of a read at a pixel's offset and what the pixels read as. -/
theorem lineCacheReads : Obligations.LineCacheReads := by
  intro s slot x rest
  constructor
  · intro h
    refine ⟨_, _, step_readAt_pixel h (.inl rfl), ?_, fun hfree => ?_⟩
    · rw [State.lineCacheRead_two_toNat]
      exact BitVec.isLt _
    · have hdrawn := State.beingDrawn_eq_false hfree
      rw [State.lineCacheRead_two_toNat, State.pixelRead_of_not_beingDrawn hdrawn, hdrawn]
      exact ⟨rfl, rfl⟩
  · intro h hx
    refine ⟨_, _, step_readAt_pixel h (.inr ⟨rfl, hx⟩), fun hfree => ?_⟩
    have hdrawn := State.beingDrawn_eq_false hfree
    rw [State.lineCacheRead_four_toNat, State.pixelRead_of_not_beingDrawn hdrawn,
      State.pixelRead_of_not_beingDrawn hdrawn, hdrawn]
    exact ⟨rfl, rfl⟩

/-! ## The writers of PRAM -/

/-- Of the host's effects only reset and a PRAM write that covers a byte change it (R43). -/
theorem HostEffect.pramByte_cases {e : PortEvent} {s t : State} (heff : HostEffect e s t) {b : Nat}
    (hne : t.pramByte b ≠ s.pramByte b) :
    e = .reset ∨ ∃ a v, e = s.writeAt a 4 v ∧ 0x40000 ≤ a ∧ a < 0x40000 + 128 * s.params.maxPolys ∧ a ≤ b ∧ b < a + 4 := by
  cases heff with
  | reset he => exact .inl he
  | stored a v _ he hlo hhi _ =>
    have hcovers : ¬ (b < a ∨ a + 4 ≤ b) := fun hout => hne (State.pramByte_writePram_other hout v s)
    exact .inr ⟨a, v, he, hlo, hhi, by omega, by omega⟩
  | _ => exact absurd rfl hne

/-- Settles O25: the engine step writes none of the three by definition, and a host effect by `HostEffect.pramByte_cases`. -/
theorem pramWriters : Obligations.PramWriters := by
  constructor
  · intro s t hd h
    rw [step_engine hd] at h
    injection h with h
    subst h
    exact ⟨fun _ => rfl, rfl, rfl⟩
  · intro s t b h hne
    rcases step_cases h with ⟨-, rfl⟩ | ⟨-, -, rfl⟩ | ⟨e, rest, hp, heff⟩
    · exact absurd rfl hne
    · exact absurd rfl hne
    · rcases heff.pramByte_cases hne with rfl | ⟨a, v, rfl, hcovered⟩
      · exact .inl ⟨rest, hp⟩
      · exact .inr ⟨rest, a, v, hp, hcovered⟩

end Sys2Proof.Machine
end

section
/-! PROOFS. The commands' words (O1, O2), the illegal words (O3) and the host-program mnemonics (O27). A word is its three
fields, so decoding and encoding are read off the format F-CMD. -/

namespace Sys2Proof.Machine

/-! ## The format F-CMD and its fields -/

@[simp] theorem opcodeField_fCmd (opcode arg : Byte) : opcodeField (fCmd opcode arg) = opcode := by
  apply BitVec.eq_of_toNat_eq
  rw [opcodeField_toNat, fCmd_toNat]
  omega

/-- RSVD is 0 when the number it holds is (R72). -/
theorem reservedField_eq_zero_iff (w : Word) : reservedField w = 0 ↔ w.toNat / 2 ^ 8 % 2 ^ 16 = 0 := by
  rw [← BitVec.toNat_inj, reservedField_toNat]
  rfl

@[simp] theorem reservedField_fCmd (opcode arg : Byte) : reservedField (fCmd opcode arg) = 0 := by
  rw [reservedField_eq_zero_iff, fCmd_toNat]
  omega

@[simp] theorem argField_fCmd (opcode arg : Byte) : argField (fCmd opcode arg) = arg := by
  apply BitVec.eq_of_toNat_eq
  rw [argField_toNat, fCmd_toNat]
  omega

/-- A word whose RSVD is 0 is in the format, made of its own OPCODE and ARG (R70). -/
theorem fCmd_opcodeField_argField {w : Word} (h : reservedField w = 0) : fCmd (opcodeField w) (argField w) = w := by
  rw [reservedField_eq_zero_iff] at h
  apply BitVec.eq_of_toNat_eq
  rw [fCmd_toNat, opcodeField_toNat, argField_toNat]
  omega

/-! ## Decoding and encoding -/

@[simp] theorem decode_encode (i : Instr) : decode (encode i) = .command i := by
  cases i <;> simp [encode, decode]

/-- Only a command's own word decodes to it. -/
theorem encode_of_decode {w : Word} {i : Instr} (h : decode w = .command i) : encode i = w := by
  unfold decode at h
  split at h
  · cases h
  next hr =>
    have hw := fCmd_opcodeField_argField (not_not.mp hr)
    split at h
    next hn =>
      cases h
      rwa [hn.1, hn.2] at hw
    split at h
    next ho =>
      cases h
      rwa [ho] at hw
    split at h <;> cases h

/-- Decoding a command's bytes gives the command back (R52, R78). -/
@[simp] theorem decodeBytes_encodeBytes (i : Instr) : decodeBytes (encodeBytes i) = .command i := by
  simp [decodeBytes, encodeBytes, bytesOfWord]

/-- The word of DRAW_SCANLINE LINE as a number (R76). -/
theorem encode_drawScanline_toNat (line : Byte) : (encode (.drawScanline line)).toNat = 0x01000000 + line.toNat :=
  fCmd_toNat 0x01 line

/-- Settles O2: a word with RSVD = 0 and its two other fields determine each other. -/
theorem decodeEncodeAgree : Obligations.DecodeEncodeAgree :=
  ⟨fun i _ => decodeBytes_encodeBytes i, fun _ _ => encode_of_decode, rfl, encode_drawScanline_toNat⟩

/-- Settles O1, by evaluating the decoder on the seven words. -/
theorem decodeSampleWords : Obligations.DecodeSampleWords := by
  unfold Obligations.DecodeSampleWords
  decide

/-! ## Illegal words -/

/-- The illegal words by the numbers their fields hold (R77); the decoder's five cases, one by one. -/
theorem exists_decode_illegal_iff (w : Word) : (∃ why, decode w = .illegal why) ↔
    (2 ≤ w.toNat / 2 ^ 24 ∨ (w.toNat / 2 ^ 24 ≤ 1 ∧ w.toNat / 2 ^ 8 % 2 ^ 16 ≠ 0) ∨
      (w.toNat / 2 ^ 24 = 0 ∧ w.toNat % 2 ^ 8 ≠ 0)) := by
  rw [decode_eq]
  split_ifs
  · exact iff_of_true ⟨_, rfl⟩ (by omega)
  · exact iff_of_false nofun (by omega)
  · exact iff_of_false nofun (by omega)
  · exact iff_of_true ⟨_, rfl⟩ (by omega)
  · exact iff_of_true ⟨_, rfl⟩ (by omega)

/-- A word written to CMD is handled by `writeCommand`. -/
theorem step_writeAt_cmd {s : State} {w : Word} {rest : List PortEvent} (h : s.Presents (s.writeAt 0x4 4 w) rest) :
    step s = writeCommand w (s.takeEvent rest) :=
  step_writeAt_register h (by norm_num) (by norm_num)

/-- An illegal word written to CMD while BUSY = 0 raises IllegalCommand (R160). -/
theorem step_illegal {s : State} {w : Word} {rest : List PortEvent} {why : Illegal}
    (h : s.Presents (s.writeAt 0x4 4 w) rest) (hidle : s.status.busy = false) (hd : decode w = .illegal why) :
    step s = .next ((s.takeEvent rest).raise .illegalCommand) := by
  rw [step_writeAt_cmd h, writeCommand_eq]
  simp [hidle, hd]

/-- Settles O3: IllegalCommand records ILLCMD, which is STATUS bit 8. -/
theorem illegalWordsSetIllcmd : Obligations.IllegalWordsSetIllcmd := by
  intro w
  refine ⟨exists_decode_illegal_iff w, fun s rest why h hidle hd => ⟨_, step_illegal h hidle hd, rfl, ?_⟩⟩
  rw [Status.read_getLsbD _ 8 (by norm_num)]
  simp

/-! ## Mnemonics -/

/-- The word DRAW n writes is DRAW_SCANLINE n's: a LINE of eight bits lies below the OPCODE's (R76, R83). -/
theorem ofNat_drawWord {n : Nat} (h : n ≤ 255) :
    BitVec.ofNat 32 (0x01000000 ||| n) = encode (.drawScanline (BitVec.ofNat 8 n)) := by
  have hor : 0x01000000 ||| n = 0x01000000 + n := (Nat.two_pow_add_eq_or_of_lt (i := 24) (by omega) 1).symm
  apply BitVec.eq_of_toNat_eq
  rw [hor, encode_drawScanline_toNat, BitVec.toNat_ofNat, BitVec.toNat_ofNat]
  omega

/-- The assembler takes every LINE up to 255 (R84). -/
theorem assembleDraw_of_le {n : Nat} (h : n ≤ 255) :
    assembleDraw n = some (encode (.drawScanline (BitVec.ofNat 8 n))) := if_pos h

/-- The assembler refuses every LINE above 255 (R84). -/
theorem assembleDraw_of_gt {n : Nat} (h : 255 < n) : assembleDraw n = none := if_neg (by omega)

/-- The one access of DRAW n (R83). -/
theorem filterMap_accessOf_draw (p : Params) {n : Nat} (h : n ≤ 255) :
    (expand (.draw n)).filterMap (accessOf p) =
      [.write (p.windowBase + 0x4) 4 (encode (.drawScanline (BitVec.ofNat 8 n)))] := by
  rw [← ofNat_drawWord h]
  rfl

/-- Settles O27; the expansion of NOP and the word of DRAW_SCANLINE 100 are so by evaluation. -/
theorem mnemonicsEncode : Obligations.MnemonicsEncode :=
  ⟨fun p _ h => ⟨filterMap_accessOf_draw p h, assembleDraw_of_le h⟩, fun _ => rfl, by decide,
    fun _ => assembleDraw_of_gt⟩

end Sys2Proof.Machine
end

section
/-! PROOFS. The normalizer (O36 to O38). Under WRAP a coordinate is its exact value reduced into int32; inside the bounds of
R91 its quotient is at most 2^30 in magnitude, so the reduction changes nothing, and ANY leaves nothing open. -/

namespace Sys2Proof.Machine

/-- The branch of a zero w (R86). -/
theorem normalizeVertex_of_w_eq_zero (mode : NormOverflow) {v : Vertex} (h : v.w = 0) : normalizeVertex mode v = v :=
  if_pos h

/-- Settles O36: the word w is 0 exactly where the number is. -/
theorem normalizeZeroW : Obligations.NormalizeZeroW := by
  intro mode v hw
  have hword : v.w = 0 := BitVec.toInt_inj.mp (hw.trans BitVec.toInt_zero.symm)
  exact normalizeVertex_of_w_eq_zero mode hword

/-- Settles O38: each coordinate is the exact value, reduced by wrap_s32. -/
theorem normalizeWraps : Obligations.NormalizeWraps := by
  intro v hw
  rw [normalizeVertex_of_w_ne_zero .wrap (w_ne_zero hw)]
  exact ⟨⟨_, wrapS32_toInt _⟩, ⟨_, wrapS32_toInt _⟩⟩

/-! ## Inside the bounds of R91 -/

/-- Below 2^23 ANY leaves nothing open. -/
theorem beyondAnyBound_eq_false {c : Word} (h : c.toInt.natAbs < 2 ^ 23) : beyondAnyBound c = false :=
  decide_eq_false (not_le.mpr h)

/-- Below ANY's bound x' is WRAP's under either setting. -/
theorem normalizedX_eq_normX {mode : NormOverflow} {v : Vertex} (h : v.x.toInt.natAbs < 2 ^ 23 ∨ mode = .wrap) :
    normalizedX mode v = normX v := by
  cases mode with
  | wrap => rfl
  | any => exact if_neg (ne_true_of_eq_false (beyondAnyBound_eq_false (h.resolve_right nofun)))

/-- Below ANY's bound y' is WRAP's under either setting. -/
theorem normalizedY_eq_normY {mode : NormOverflow} {v : Vertex} (h : v.y.toInt.natAbs < 2 ^ 23 ∨ mode = .wrap) :
    normalizedY mode v = normY v := by
  cases mode with
  | wrap => rfl
  | any => exact if_neg (ne_true_of_eq_false (beyondAnyBound_eq_false (h.resolve_right nofun)))

/-- int32 reaches 2^31 in magnitude, at its lower end alone. -/
theorem natAbs_toInt_le (c : Word) : c.toInt.natAbs ≤ 2 ^ 31 := by
  have hlo := BitVec.le_toInt c
  have hhi := BitVec.toInt_lt (x := c)
  omega

/-- The bounds of R91: a coordinate below 2^23 keeps the scaled product at most 2^30, and a divisor of at least 256 brings
the largest one, 2^38, down to it. -/
theorem natAbs_scaledQuotient_le {c scale w : Int} (hc : c.natAbs ≤ 2 ^ 31) (hscale : scale.natAbs ≤ 2 ^ 7)
    (h : c.natAbs < 2 ^ 23 ∨ 2 ^ 8 ≤ w.natAbs) : (Int.tdiv (c * scale) w).natAbs ≤ 2 ^ 30 := by
  rw [Int.natAbs_tdiv, Int.natAbs_mul]
  rcases h with hsmall | hlarge
  · calc c.natAbs * scale.natAbs / w.natAbs ≤ c.natAbs * scale.natAbs := Nat.div_le_self _ _
      _ ≤ 2 ^ 23 * 2 ^ 7 := Nat.mul_le_mul hsmall.le hscale
  · calc c.natAbs * scale.natAbs / w.natAbs ≤ 2 ^ 31 * 2 ^ 7 / 2 ^ 8 :=
        Nat.div_le_div (Nat.mul_le_mul hc hscale) hlarge (by norm_num)
      _ = 2 ^ 30 := by norm_num

/-- Inside the bounds of R91 a normalized coordinate is the truncated rational quotient plus its offset (R87, R88, R90). -/
theorem wrapS32_scaledQuotient_toInt {c scale offset w : Int} (hw : w ≠ 0) (hc : c.natAbs ≤ 2 ^ 31)
    (hscale : scale.natAbs ≤ 2 ^ 7) (hoffset : offset.natAbs ≤ 2 ^ 7) (h : c.natAbs < 2 ^ 23 ∨ 2 ^ 8 ≤ w.natAbs) :
    (wrapS32 (div0 (c * scale) w + offset)).toInt = trunc0 ((c * scale : ℚ) / w) + offset := by
  have hquot := natAbs_scaledQuotient_le hc hscale h
  have htrunc : trunc0 ((c * scale : ℚ) / w) = Int.tdiv (c * scale) w := by
    exact_mod_cast trunc0_div_of_ne_zero (c * scale) w hw
  rw [htrunc, div0]
  exact wrapS32_toInt_of_lt (by omega)

/-- x' inside the bounds of R91. -/
theorem normX_toInt {v : Vertex} (hw : v.w.toInt ≠ 0) (h : v.x.toInt.natAbs < 2 ^ 23 ∨ 256 ≤ v.w.toInt.natAbs) :
    (normX v).toInt = trunc0 ((v.x.toInt * 128 : ℚ) / v.w.toInt) + 128 := by
  simpa only [normX, normXScale, normXOffset, Int.cast_ofNat] using
    wrapS32_scaledQuotient_toInt (scale := 128) (offset := 128) hw (natAbs_toInt_le v.x) (by decide) (by decide) h

/-- y' inside the bounds of R91. -/
theorem normY_toInt {v : Vertex} (hw : v.w.toInt ≠ 0) (h : v.y.toInt.natAbs < 2 ^ 23 ∨ 256 ≤ v.w.toInt.natAbs) :
    (normY v).toInt = trunc0 ((-v.y.toInt * 96 : ℚ) / v.w.toInt) + 96 := by
  have hneg := Int.natAbs_neg v.y.toInt
  simpa only [normY, normYScale, normYOffset, Int.cast_ofNat, Int.cast_neg] using
    wrapS32_scaledQuotient_toInt (scale := 96) (offset := 96) hw (hneg.trans_le (natAbs_toInt_le v.y)) (by decide)
      (by decide) (hneg.symm ▸ h)

/-- Settles O37: inside the bounds both settings give WRAP's coordinate, and its reduction changes nothing. -/
theorem normalizeTruncates : Obligations.NormalizeTruncates := by
  intro mode v hw
  rw [normalizeVertex_of_w_ne_zero mode (w_ne_zero hw)]
  refine ⟨fun hx => ?_, fun hy => ?_, rfl, rfl, rfl⟩
  · show (normalizedX mode v).toInt = _
    rw [normalizedX_eq_normX (hx.imp_right And.left), normX_toInt hw (hx.imp_right And.right)]
  · show (normalizedY mode v).toInt = _
    rw [normalizedY_eq_normY (hy.imp_right And.left), normY_toInt hw (hy.imp_right And.right)]

end Sys2Proof.Machine
end

section
/-! PROOFS. fl keeps order and keeps the binary32 values (R11): both follow from fl's value being a nearest one. -/

namespace Sys2Proof.Machine

/-- If fl turned two values around, each would lie at the midpoint of the two results, so the two would be one. -/
theorem fl_mono : Monotone fl := by
  intro q r h
  by_contra hlt
  rw [not_le] at hlt
  have hq : q - fl r ≥ fl q - q := by
    have := fl_nearest q (isBinary32_fl r)
    cases abs_cases (q - fl q) <;> cases abs_cases (q - fl r) <;> linarith
  have hr : fl q - r ≥ r - fl r := by
    have := fl_nearest r (isBinary32_fl q)
    cases abs_cases (r - fl r) <;> cases abs_cases (r - fl q) <;> linarith
  have heq : q = r := by linarith
  exact hlt.ne (by rw [heq])

/-- A binary32 value is not changed: none is nearer to it than itself. -/
theorem fl_of_isBinary32 {v : ℚ} (h : IsBinary32 v) : fl v = v := by
  have hdist := fl_nearest v h
  rw [sub_self, abs_zero, abs_nonpos_iff, sub_eq_zero] at hdist
  exact hdist.symm

@[simp] theorem fl_fl (q : ℚ) : fl (fl q) = fl q := fl_of_isBinary32 (isBinary32_fl q)

/-- Whole numbers of at most 24 bits are binary32 values. -/
theorem fl_intCast {n : Int} (h : n.natAbs ≤ 2 ^ 24) : fl (n : ℚ) = n :=
  fl_of_isBinary32 (by simpa using isBinary32_of_natAbs_le h (e := 0) (by norm_num))

@[simp] theorem fl_one : fl 1 = 1 := by simpa using fl_intCast (n := 1) (by norm_num)

theorem fl_nonneg {q : ℚ} (h : 0 ≤ q) : 0 ≤ fl q := by simpa using fl_mono h

theorem fl_nonpos {q : ℚ} (h : q ≤ 0) : fl q ≤ 0 := by simpa using fl_mono h

theorem one_le_fl {q : ℚ} (h : 1 ≤ q) : 1 ≤ fl q := by simpa using fl_mono h

/-- A positive length does not round to 0, so the gradient's division is total (R97). -/
theorem fl_length_pos {start stop : Int} (h : start < stop) : 0 < fl ((stop - start : Int) : ℚ) :=
  one_pos.trans_le (one_le_fl (by exact_mod_cast Int.sub_pos_of_lt h))

end Sys2Proof.Machine
end

section
/-! PROOFS. The interpolation under EXACT: one truncating division (O40), and its order in the current position (O41). -/

namespace Sys2Proof.Machine

/-- A length between rising positions, as a rational (R95). -/
theorem length_pos {start stop : Int} (h : start < stop) : (0 : ℚ) < ((stop - start : Int) : ℚ) := by
  exact_mod_cast Int.sub_pos_of_lt h

/-! ## The gradient -/

theorem exactGradient_of_le_start {start current stop : Int} (h : start < stop) (hc : current ≤ start) :
    exactGradient start current stop = 0 :=
  clamp_of_le_zero (div_nonpos_of_nonpos_of_nonneg (by exact_mod_cast Int.sub_nonpos_of_le hc) (length_pos h).le)

theorem exactGradient_of_stop_le {start current stop : Int} (h : start < stop) (hc : stop ≤ current) :
    exactGradient start current stop = 1 :=
  clamp_of_one_le ((one_le_div (length_pos h)).mpr (by exact_mod_cast Int.sub_le_sub_right hc start))

theorem exactGradient_of_between {start current stop : Int} (h : start < stop) (hlo : start ≤ current)
    (hhi : current ≤ stop) :
    exactGradient start current stop = ((current - start : Int) : ℚ) / ((stop - start : Int) : ℚ) :=
  clamp_of_mem (div_nonneg (by exact_mod_cast Int.sub_nonneg_of_le hlo) (length_pos h).le)
    ((div_le_one (length_pos h)).mpr (by exact_mod_cast Int.sub_le_sub_right hhi start))

/-- Negating the positions negates both terms of the fraction. -/
theorem exactGradient_neg (start current stop : Int) :
    exactGradient (-start) (-current) (-stop) = exactGradient start current stop := by
  unfold exactGradient
  rw [← neg_div_neg_eq]
  push_cast
  ring_nf

theorem exactGradient_mono {start current later stop : Int} (h : start < stop) (hc : current ≤ later) :
    exactGradient start current stop ≤ exactGradient start later stop :=
  clamp_mono (div_le_div_of_nonneg_right (by exact_mod_cast Int.sub_le_sub_right hc start) (length_pos h).le)

/-! ## The result -/

/-- Between its ends the exact sum is a fraction of whole numbers, truncated once (R96). -/
theorem interpolateExact_of_between {min max start current stop : Int} (h : start < stop) (hlo : start ≤ current)
    (hhi : current ≤ stop) :
    interpolateExact min max start current stop =
      Int.tdiv (min * (stop - start) + (current - start) * (max - min)) (stop - start) := by
  have hlen : ((stop - start : Int) : ℚ) ≠ 0 := (length_pos h).ne'
  rw [interpolateExact_eq, if_neg h.ne, exactGradient_of_between h hlo hhi, ← trunc0_div _ _ (Int.sub_pos_of_lt h)]
  congr 1
  rw [eq_div_iff hlen, add_mul, div_mul_eq_mul_div, div_mul_cancel₀ _ hlen]
  push_cast
  rfl

theorem interpolateExact_neg (min max start current stop : Int) :
    interpolateExact min max (-start) (-current) (-stop) = interpolateExact min max start current stop := by
  simp only [interpolateExact_eq, exactGradient_neg, neg_inj]

/-- The result lies between the endpoints, whichever is below. -/
theorem interpolateExact_mem (min max start current stop : Int) :
    interpolateExact min max start current stop ∈ Set.uIcc min max := by
  rw [Set.mem_uIcc]
  rcases le_total min max with h | h
  · exact .inl (interpolateExact_bounds_of_le h start current stop)
  · exact .inr (interpolateExact_bounds_of_ge h start current stop)

theorem interpolateExact_mono {min max : Int} (hle : min ≤ max) {start current later stop : Int} (h : start < stop)
    (hc : current ≤ later) :
    interpolateExact min max start current stop ≤ interpolateExact min max start later stop := by
  have hd : (0 : ℚ) ≤ ((max - min : Int) : ℚ) := by exact_mod_cast Int.sub_nonneg_of_le hle
  rw [interpolateExact_eq, interpolateExact_eq, if_neg h.ne, if_neg h.ne]
  exact trunc0_mono (add_le_add_right (mul_le_mul_of_nonneg_right (exactGradient_mono h hc) hd) _)

theorem interpolateExact_anti {min max : Int} (hge : max ≤ min) {start current later stop : Int} (h : start < stop)
    (hc : current ≤ later) :
    interpolateExact min max start later stop ≤ interpolateExact min max start current stop := by
  have hd : ((max - min : Int) : ℚ) ≤ 0 := by exact_mod_cast Int.sub_nonpos_of_le hge
  rw [interpolateExact_eq, interpolateExact_eq, if_neg h.ne, if_neg h.ne]
  exact trunc0_mono (add_le_add_right (mul_le_mul_of_nonpos_right (exactGradient_mono h hc) hd) _)

/-- Settles O40: the gradient is 0, 1 or the fraction itself, and negated positions have the same gradient. -/
theorem interpolateExactQuotient : Obligations.InterpolateExactQuotient := fun min max start current stop =>
  ⟨fun h hc => interpolateExact_of_gradient_zero (exactGradient_of_le_start h hc),
    fun h hc => interpolateExact_of_gradient_one h.ne (exactGradient_of_stop_le h hc),
    interpolateExact_of_between,
    fun _ => (interpolateExact_neg min max start current stop).symm⟩

end Sys2Proof.Machine
end

section
/-! PROOFS. The interpolation under BINARY32 (O39, O41, O42): fl keeps order, so the sum moves with the gradient, and within 24
bits it stays between the endpoints, which fl does not change. -/

namespace Sys2Proof.Machine

/-! ## The gradient -/

/-- The gradient under BINARY32 (R97). -/
def binary32Gradient (start current stop : Int) : ℚ :=
  clamp (fl (fl ((current - start : Int) : ℚ) / fl ((stop - start : Int) : ℚ))) 0 1

/-- The sum through its gradient (R97). -/
theorem binary32Sum_eq (min max start current stop : Int) : binary32Sum min max start current stop =
    fl (fl (min : ℚ) + fl (fl ((max - min : Int) : ℚ) * binary32Gradient start current stop)) := rfl

theorem binary32Gradient_of_le_start {start current stop : Int} (h : start < stop) (hc : current ≤ start) :
    binary32Gradient start current stop = 0 :=
  clamp_of_le_zero (fl_nonpos (div_nonpos_of_nonpos_of_nonneg
    (fl_nonpos (by exact_mod_cast Int.sub_nonpos_of_le hc)) (fl_length_pos h).le))

theorem binary32Gradient_of_stop_le {start current stop : Int} (h : start < stop) (hc : stop ≤ current) :
    binary32Gradient start current stop = 1 :=
  clamp_of_one_le (one_le_fl ((one_le_div (fl_length_pos h)).mpr
    (fl_mono (by exact_mod_cast Int.sub_le_sub_right hc start))))

theorem binary32Gradient_mono {start current later stop : Int} (h : start < stop) (hc : current ≤ later) :
    binary32Gradient start current stop ≤ binary32Gradient start later stop :=
  clamp_mono (fl_mono (div_le_div_of_nonneg_right
    (fl_mono (by exact_mod_cast Int.sub_le_sub_right hc start)) (fl_length_pos h).le))

/-! ## The sum -/

theorem binary32Sum_of_le_start (min max : Int) {start current stop : Int} (h : start < stop) (hc : current ≤ start) :
    binary32Sum min max start current stop = fl (min : ℚ) := by
  simp [binary32Sum_eq, binary32Gradient_of_le_start h hc]

theorem binary32Sum_mono {min max : Int} (hle : min ≤ max) {start current later stop : Int} (h : start < stop)
    (hc : current ≤ later) : binary32Sum min max start current stop ≤ binary32Sum min max start later stop := by
  have hd : 0 ≤ fl ((max - min : Int) : ℚ) := fl_nonneg (by exact_mod_cast Int.sub_nonneg_of_le hle)
  rw [binary32Sum_eq, binary32Sum_eq]
  exact fl_mono (add_le_add_right (fl_mono (mul_le_mul_of_nonneg_left (binary32Gradient_mono h hc) hd)) _)

theorem binary32Sum_anti {min max : Int} (hge : max ≤ min) {start current later stop : Int} (h : start < stop)
    (hc : current ≤ later) : binary32Sum min max start later stop ≤ binary32Sum min max start current stop := by
  have hd : fl ((max - min : Int) : ℚ) ≤ 0 := fl_nonpos (by exact_mod_cast Int.sub_nonpos_of_le hge)
  rw [binary32Sum_eq, binary32Sum_eq]
  exact fl_mono (add_le_add_right (fl_mono (mul_le_mul_of_nonpos_left (binary32Gradient_mono h hc) hd)) _)

/-! ## Within 24 bits -/

/-- fl changes neither the endpoints nor their difference. -/
def Within24Bits (min max : Int) : Prop :=
  min.natAbs ≤ 2 ^ 24 ∧ max.natAbs ≤ 2 ^ 24 ∧ (max - min).natAbs ≤ 2 ^ 24

theorem Within24Bits.binary32Sum_eq {min max : Int} (hw : Within24Bits min max) (start current stop : Int) :
    binary32Sum min max start current stop =
      fl (min + fl (((max - min : Int) : ℚ) * binary32Gradient start current stop)) := by
  obtain ⟨hmin, -, hdiff⟩ := hw
  rw [Machine.binary32Sum_eq, fl_intCast hmin, fl_intCast hdiff]

/-- A part of `d` lies between 0 and `d`, whatever sign `d` has. -/
theorem mul_mem_uIcc {d g : ℚ} (h0 : 0 ≤ g) (h1 : g ≤ 1) : d * g ∈ Set.uIcc 0 d := by
  rw [Set.mem_uIcc]
  rcases le_total 0 d with hd | hd
  · exact .inl ⟨mul_nonneg hd h0, mul_le_of_le_one_right hd h1⟩
  · exact .inr ⟨le_mul_of_le_one_right hd h1, mul_nonpos_of_nonpos_of_nonneg hd h0⟩

/-- fl keeps order and keeps the endpoints, so neither rounding leaves the interval between them. -/
theorem Within24Bits.binary32Sum_mem {min max : Int} (hw : Within24Bits min max) (start current stop : Int) :
    binary32Sum min max start current stop ∈ Set.uIcc (min : ℚ) max := by
  rw [hw.binary32Sum_eq]
  obtain ⟨hmin, hmax, hdiff⟩ := hw
  have hpart := fl_mono.mapsTo_uIcc
    (mul_mem_uIcc (d := ((max - min : Int) : ℚ)) (clamp_nonneg _) (clamp_le_one _) :
      _ * binary32Gradient start current stop ∈ _)
  rw [fl_zero, fl_intCast hdiff] at hpart
  have hsum := fl_mono.mapsTo_uIcc ((monotone_id.const_add (min : ℚ)).mapsTo_uIcc hpart)
  simpa [fl_intCast hmin, fl_intCast hmax] using hsum

theorem Within24Bits.binary32Sum_bounds {min max : Int} (hw : Within24Bits min max) (start current stop : Int) :
    -2 ^ 31 ≤ binary32Sum min max start current stop ∧ binary32Sum min max start current stop ≤ 2 ^ 31 - 1 := by
  have hmem := Set.mem_uIcc.mp (hw.binary32Sum_mem start current stop)
  obtain ⟨hmin, hmax, -⟩ := hw
  have hlo {n : Int} (h : n.natAbs ≤ 2 ^ 24) : (-2 ^ 31 : ℚ) ≤ n := by
    exact_mod_cast (by omega : (-2 ^ 31 : Int) ≤ n)
  have hhi {n : Int} (h : n.natAbs ≤ 2 ^ 24) : (n : ℚ) ≤ 2 ^ 31 - 1 := by
    exact_mod_cast (by omega : n ≤ (2 ^ 31 - 1 : Int))
  rcases hmem with ⟨hl, hr⟩ | ⟨hl, hr⟩
  · exact ⟨(hlo hmin).trans hl, hr.trans (hhi hmax)⟩
  · exact ⟨(hlo hmax).trans hl, hr.trans (hhi hmin)⟩

/-! ## The result -/

theorem interpolateBinary32_tie (min max start current : Int) : interpolateBinary32 min max start current start = min :=
  if_pos rfl

/-- At or before start the result is fl(min) truncated, where that lies in int32. -/
theorem interpolateBinary32_of_le_start {min : Int} (max : Int) {start current stop : Int} (h : start < stop)
    (hc : current ≤ start) (hlo : -2 ^ 31 ≤ fl (min : ℚ)) (hhi : fl (min : ℚ) ≤ 2 ^ 31 - 1) :
    interpolateBinary32 min max start current stop = trunc0 (fl (min : ℚ)) := by
  have hsum := binary32Sum_of_le_start min max h hc
  rw [interpolateBinary32_of_mem h.ne (hsum ▸ hlo) (hsum ▸ hhi), hsum]

theorem Within24Bits.interpolateBinary32_eq {min max : Int} (hw : Within24Bits min max) {start stop : Int}
    (h : start ≠ stop) (current : Int) :
    interpolateBinary32 min max start current stop = trunc0 (binary32Sum min max start current stop) := by
  obtain ⟨hlo, hhi⟩ := hw.binary32Sum_bounds start current stop
  exact interpolateBinary32_of_mem h hlo hhi

theorem Within24Bits.interpolateBinary32_of_le_start {min max : Int} (hw : Within24Bits min max)
    {start current stop : Int} (h : start < stop) (hc : current ≤ start) :
    interpolateBinary32 min max start current stop = min := by
  have heq := hw.interpolateBinary32_eq h.ne current
  obtain ⟨hmin, -, -⟩ := hw
  rw [heq, binary32Sum_of_le_start min max h hc, fl_intCast hmin, trunc0_intCast]

theorem Within24Bits.interpolateBinary32_of_stop_le {min max : Int} (hw : Within24Bits min max)
    {start current stop : Int} (h : start < stop) (hc : stop ≤ current) :
    interpolateBinary32 min max start current stop = max := by
  have hsum := hw.binary32Sum_eq start current stop
  have heq := hw.interpolateBinary32_eq h.ne current
  obtain ⟨-, hmax, hdiff⟩ := hw
  rw [heq, hsum, binary32Gradient_of_stop_le h hc, mul_one, fl_intCast hdiff, Int.cast_sub, add_sub_cancel,
    fl_intCast hmax, trunc0_intCast]

/-- Within 24 bits the result lies between the endpoints. -/
theorem Within24Bits.interpolateBinary32_mem {min max : Int} (hw : Within24Bits min max) (start current stop : Int) :
    interpolateBinary32 min max start current stop ∈ Set.uIcc min max := by
  by_cases h : start = stop
  · rw [h, interpolateBinary32_tie]
    exact Set.left_mem_uIcc
  · have htrunc : Monotone trunc0 := fun _ _ => trunc0_mono
    rw [hw.interpolateBinary32_eq h]
    simpa using htrunc.mapsTo_uIcc (hw.binary32Sum_mem start current stop)

/-! ## The obligations -/

/-- Settles O39. -/
theorem interpolateTie : Obligations.InterpolateTie := by
  intro arith min max current start
  cases arith with
  | exact => exact interpolateExact_tie ..
  | binary32 => exact interpolateBinary32_tie ..

/-- Settles O41: fl, the clamp and trunc0 keep order, and within 24 bits fl keeps the endpoints. -/
theorem interpolateExactMonotone : Obligations.InterpolateExactMonotone := by
  refine ⟨fun min max start current stop => ⟨?_, ?_, ?_⟩, fun min max start current stop hne => ⟨rfl, ?_⟩,
    fun min max start current stop hmin hmax hdiff => ?_,
    fun min max start current later stop h hc hlo hhi hlo' hhi' => ?_,
    fun min max start current stop h hc => interpolateBinary32_of_le_start max h hc⟩
  · exact fun hle => interpolateExact_bounds_of_le hle start current stop
  · exact fun hge => interpolateExact_bounds_of_ge hge start current stop
  · exact fun later h hc => ⟨fun hle => interpolateExact_mono hle h hc, fun hge => interpolateExact_anti hge h hc⟩
  · exact interpolateBinary32_of_mem hne
  · have hw : Within24Bits min max := ⟨hmin, hmax, hdiff⟩
    have hmem := hw.interpolateBinary32_mem start current stop
    refine ⟨hw.interpolateBinary32_of_le_start, hw.interpolateBinary32_of_stop_le, fun hle => ?_, fun hge => ?_⟩
    · rwa [Set.uIcc_of_le hle] at hmem
    · rwa [Set.uIcc_of_ge hge] at hmem
  · simp only [interpolate, interpolateBinary32_of_mem h.ne hlo hhi, interpolateBinary32_of_mem h.ne hlo' hhi']
    exact ⟨fun hle => trunc0_mono (binary32Sum_mono hle h hc), fun hge => trunc0_mono (binary32Sum_anti hge h hc)⟩

/-- A sum inside int32 truncates to an int32, and the free value of a sum outside is one (R98). -/
theorem interpolateBinary32_isInt32 {min : Int} (hmin : IsInt32 min) (max start current stop : Int) :
    IsInt32 (interpolateBinary32 min max start current stop) := by
  unfold interpolateBinary32
  dsimp only
  split
  · exact hmin
  · split
    · exact ⟨BitVec.le_toInt _, Int.le_sub_one_of_lt (BitVec.toInt_lt)⟩
    · next hin =>
      rw [not_or, not_lt, not_lt] at hin
      obtain ⟨hlo, hhi⟩ := hin
      exact ⟨le_trunc0_of_intCast_le (by exact_mod_cast hlo), trunc0_le_of_le_intCast (by exact_mod_cast hhi)⟩

/-- Settles O42: EXACT stays between its endpoints, and BINARY32 truncates inside int32 or draws an int32. -/
theorem interpolateFitsInt32 : Obligations.InterpolateFitsInt32 := by
  intro arith min max start current stop hmin hmax
  cases arith with
  | exact => exact Set.uIcc_subset_Icc hmin hmax (interpolateExact_mem min max start current stop)
  | binary32 => exact interpolateBinary32_isInt32 hmin max start current stop

end Sys2Proof.Machine
end

section
/-! PROOFS. Colors (O44, O45): a channel is five bits of its own, wide enough for every interpolation of five-bit values. -/

namespace Sys2Proof.Machine

/-! ## Bit 15 of the inputs -/

theorem red_or_bit15 (c : Half) : red (c ||| 0x8000) = red c := by
  simp [red, BitVec.extractLsb'_or]

theorem green_or_bit15 (c : Half) : green (c ||| 0x8000) = green c := by
  simp [green, BitVec.extractLsb'_or]

theorem blue_or_bit15 (c : Half) : blue (c ||| 0x8000) = blue c := by
  simp [blue, BitVec.extractLsb'_or]

/-- Settles O44: bit 15 is packed as 1, and no channel reads bit 15. -/
theorem colorOpacity : Obligations.ColorOpacity := by
  intro arith min max start current stop
  refine ⟨interpolateColor_getLsbD_15 .., ?_⟩
  simp only [interpolateColor, red_or_bit15, green_or_bit15, blue_or_bit15]

/-! ## The channels -/

/-- In both arithmetics the interpolation of two channel values lies between them. -/
theorem interpolate_channel_mem (arith : InterpArith) (a b : BitVec 5) (start current stop : Int) :
    interpolate arith a.toNat b.toNat start current stop ∈ Set.uIcc (a.toNat : Int) b.toNat := by
  cases arith with
  | exact => exact interpolateExact_mem ..
  | binary32 =>
    have hw : Within24Bits a.toNat b.toNat := by
      have := a.isLt
      have := b.isLt
      unfold Within24Bits
      omega
    exact hw.interpolateBinary32_mem start current stop

/-- Five bits hold the interpolation of two channel values. -/
theorem interpolateChannel_toNat (arith : InterpArith) (a b : BitVec 5) (start current stop : Int) :
    ((interpolateChannel arith a b start current stop).toNat : Int) =
      interpolate arith a.toNat b.toNat start current stop := by
  have hmem := Set.mem_uIcc.mp (interpolate_channel_mem arith a b start current stop)
  have := a.isLt
  have := b.isLt
  rw [interpolateChannel, BitVec.toNat_ofInt]
  omega

/-- Field `k` of a color, of R, G and B in this order (R101). -/
def channelField (k : Nat) (c : Half) : BitVec 5 := c.extractLsb' (5 * k) 5

theorem channelField_toNat (k : Nat) (c : Half) : (channelField k c).toNat = c.toNat / 32 ^ k % 32 := by
  simp [channelField, Nat.shiftRight_eq_div_pow, Nat.pow_mul]

/-- The fields of a packed color are the three it was packed from (R38). -/
theorem channelField_packColor (b g r : BitVec 5) :
    channelField 0 (packColor b g r) = r ∧ channelField 1 (packColor b g r) = g ∧
      channelField 2 (packColor b g r) = b := by
  have := r.isLt
  have := g.isLt
  have := b.isLt
  simp only [← BitVec.toNat_inj, channelField_toNat, packColor_toNat]
  omega

/-- No carry crosses a channel's ends (R102). -/
theorem channelField_interpolateColor (arith : InterpArith) (first second : Half) (start current stop : Int) {k : Nat}
    (hk : k < 3) :
    channelField k (interpolateColor arith first second start current stop) =
      interpolateChannel arith (channelField k first) (channelField k second) start current stop := by
  match k, hk with
  | 0, _ => exact (channelField_packColor ..).1
  | 1, _ => exact (channelField_packColor ..).2.1
  | 2, _ => exact (channelField_packColor ..).2.2

/-- Settles O45: each field is its own channel's interpolation, which lies between the two inputs' values. -/
theorem colorChannelsIndependent : Obligations.ColorChannelsIndependent := by
  intro arith first second start current stop k hk
  simp only [← channelField_toNat, channelField_interpolateColor arith first second start current stop hk]
  have hmem := interpolate_channel_mem arith (channelField k first) (channelField k second) start current stop
  have hval := interpolateChannel_toNat arith (channelField k first) (channelField k second) start current stop
  rw [← hval] at hmem
  refine ⟨hval, fun hle => ?_, fun hge => ?_⟩
  · rw [Set.uIcc_of_le (by exact_mod_cast hle), Set.mem_Icc] at hmem
    exact_mod_cast hmem
  · rw [Set.uIcc_of_ge (by exact_mod_cast hge), Set.mem_Icc] at hmem
    exact_mod_cast hmem

end Sys2Proof.Machine
end

section
/-! PROOFS. Sorting (O48, O46, O47): what one CAS does, the triangle network by the order of its three ys, and a legal quad
network by the 0-1 principle: marking the ys above a bound turns CAS into the compare-and-swap of the network's check. -/

namespace Sys2Proof.Machine

/-! ## One CAS -/

/-- Settles O48, by reading the two writes of an exchange at `p`, at `q` and elsewhere. -/
theorem casSwapsStrictly : Obligations.CasSwapsStrictly := by
  intro n v p q hpq
  refine ⟨fun hlt => ?_, cas_of_le⟩
  have hne : q.val ≠ p.val := Fin.val_ne_of_ne hpq.ne'
  rw [cas_of_lt hlt]
  refine ⟨by simp [hne], by simp, fun r hrp hrq => ?_⟩
  simp [Fin.val_ne_of_ne hrp.symm, Fin.val_ne_of_ne hrq.symm]

/-- CAS moves nothing where the ys already rise. -/
theorem Ascending.cas_eq {n : Nat} {v : Vector Vertex n} (h : Ascending v) {p q : Fin n} (hpq : p < q) : cas v p q = v :=
  cas_of_le (h.le hpq)

/-! ## The triangle network -/

theorem cas_triangle_01 (a b c : Vertex) :
    cas #v[a, b, c] 0 1 = if b.y.toInt < a.y.toInt then #v[b, a, c] else #v[a, b, c] := rfl

theorem cas_triangle_02 (a b c : Vertex) :
    cas #v[a, b, c] 0 2 = if c.y.toInt < a.y.toInt then #v[c, b, a] else #v[a, b, c] := rfl

theorem cas_triangle_12 (a b c : Vertex) :
    cas #v[a, b, c] 1 2 = if c.y.toInt < b.y.toInt then #v[a, c, b] else #v[a, b, c] := rfl

/-- The triangle network by the comparisons it makes; where both later ys are below the first, its last one is decided. -/
theorem sort3_eq (a b c : Vertex) :
    sort3 #v[a, b, c] =
      if b.y.toInt < a.y.toInt then
        if c.y.toInt < b.y.toInt then #v[c, b, a]
        else if c.y.toInt < a.y.toInt then #v[b, c, a] else #v[b, a, c]
      else if c.y.toInt < a.y.toInt then
        if a.y.toInt < b.y.toInt then #v[c, a, b] else #v[c, b, a]
      else if c.y.toInt < b.y.toInt then #v[a, c, b] else #v[a, b, c] := by
  rw [sort3, cas_triangle_01]
  split
  · next hba =>
    rw [cas_triangle_02]
    split <;> rw [cas_triangle_12]
    exact if_pos hba
  · rw [cas_triangle_02]
    split <;> rw [cas_triangle_12]

theorem vector3_eq {α : Type} (v : Vector α 3) : v = #v[v[0], v[1], v[2]] := by
  ext i hi
  interval_cases i <;> rfl

theorem ascending_triangle {a b c : Vertex} :
    Ascending #v[a, b, c] ↔ a.y.toInt ≤ b.y.toInt ∧ b.y.toInt ≤ c.y.toInt := by
  simp [Ascending]
  omega

/-- The triangle network sorts (R110). -/
theorem sort3_ascending (v : Vector Vertex 3) : Ascending (sort3 v) := by
  rw [vector3_eq v, sort3_eq]
  split_ifs <;> rw [ascending_triangle] <;> omega

/-- Rising ys: nothing moves. -/
theorem sort3_of_rising {a b c : Vertex} (hab : a.y.toInt ≤ b.y.toInt) (hbc : b.y.toInt ≤ c.y.toInt) :
    sort3 #v[a, b, c] = #v[a, b, c] := by
  rw [sort3_eq, if_neg (by omega), if_neg (by omega), if_neg (by omega)]

/-- R110's corner case: the last y below two equal ones turns the three around. -/
theorem sort3_of_equal_then_lower {a b c : Vertex} (hca : c.y.toInt < a.y.toInt) (hab : a.y.toInt = b.y.toInt) :
    sort3 #v[a, b, c] = #v[c, b, a] := by
  rw [sort3_eq, if_neg (by omega), if_pos hca, if_neg (by omega)]

/-- Settles O46, by taking each order of the ys through the comparisons of `sort3_eq`. -/
theorem sort3Sorts : Obligations.Sort3Sorts := by
  refine ⟨fun v => ⟨rfl, sort3_ascending v, sort3_perm v⟩, fun a b c =>
    ⟨sort3_of_rising, fun hac hcb => ?_, fun hca hab => ?_, sort3_of_equal_then_lower, fun hba hac => ?_,
      fun hbc hca => ?_, fun hcb hba => ?_⟩⟩ <;> rw [sort3_eq]
  · rw [if_neg (by omega), if_neg (by omega), if_pos hcb]
  · rw [if_neg (by omega), if_pos hca, if_pos hab]
  · rw [if_pos hba, if_neg (by omega), if_neg (by omega)]
  · rw [if_pos (by omega), if_neg (by omega), if_pos hca]
  · rw [if_pos hba, if_pos hcb]

/-! ## A legal quad network -/

/-- Which ys lie above a bound, as the numbers the network's check sorts. -/
def marksAbove (bound : Int) (v : Vector Vertex 4) : Vector Nat 4 := v.map fun u => if bound < u.y.toInt then 1 else 0

theorem marksAbove_getElem (bound : Int) (v : Vector Vertex 4) (i : Fin 4) :
    (marksAbove bound v)[i] = if bound < v[i].y.toInt then 1 else 0 := by
  simp [marksAbove]

/-- One y is at most another exactly when no bound marks the first and not the second. -/
theorem marksAbove_le_iff {v : Vector Vertex 4} {i j : Fin 4} :
    (∀ bound, (marksAbove bound v)[i] ≤ (marksAbove bound v)[j]) ↔ v[i].y.toInt ≤ v[j].y.toInt := by
  simp only [marksAbove_getElem]
  constructor
  · intro h
    have := h v[j].y.toInt
    split_ifs at this <;> omega
  · intro h bound
    split_ifs <;> omega

/-- Marking commutes with CAS: where two records with equal marks change places, the marks are the same as before. -/
theorem marksAbove_cas (bound : Int) (v : Vector Vertex 4) (p q : Fin 4) :
    marksAbove bound (cas v p q) = netSwap (marksAbove bound v) (p, q) := by
  rcases lt_or_ge v[q].y.toInt v[p].y.toInt with hlt | hle
  · have hswap : marksAbove bound (cas v p q) =
        ((marksAbove bound v).set p (marksAbove bound v)[q]).set q (marksAbove bound v)[p] := by
      rw [cas_of_lt hlt]
      simp [marksAbove, Vector.map_set]
    rw [hswap, netSwap]
    split
    · rfl
    · next hnot =>
      have heq : (marksAbove bound v)[q] = (marksAbove bound v)[p] :=
        le_antisymm (marksAbove_le_iff.mpr hlt.le bound) (not_lt.mp hnot)
      rw [heq]
      have hp : (marksAbove bound v).set p (marksAbove bound v)[p] = marksAbove bound v := by simp
      rw [hp, ← heq]
      simp
  · rw [cas_of_le hle, netSwap, if_neg (not_lt.mpr (marksAbove_le_iff.mpr hle bound))]

theorem marksAbove_sort4 (bound : Int) (net : Vector (Fin 4 × Fin 4) 6) (v : Vector Vertex 4) :
    marksAbove bound (sort4 net v) = net.toList.foldl netSwap (marksAbove bound v) := by
  unfold sort4
  induction net.toList generalizing v with
  | nil => rfl
  | cons pq rest ih => rw [List.foldl_cons, List.foldl_cons, ih, marksAbove_cas]

theorem vector4_eq {α : Type} (v : Vector α 4) : v = #v[v[0], v[1], v[2], v[3]] := by
  ext i hi
  interval_cases i <;> rfl

/-- The check of a network runs on every vector of zeros and ones. -/
theorem netSorts_sorted {net : Vector (Fin 4 × Fin 4) 6} (h : netSorts net = true) {m : Vector Nat 4}
    (hm : ∀ i : Fin 4, m[i] ≤ 1) :
    let w := net.toList.foldl netSwap m
    w[0] ≤ w[1] ∧ w[1] ≤ w[2] ∧ w[2] ≤ w[3] := by
  have h0 : m[0] ≤ 1 := hm 0
  have h1 : m[1] ≤ 1 := hm 1
  have h2 : m[2] ≤ 1 := hm 2
  have h3 : m[3] ≤ 1 := hm 3
  set n := m[0] + 2 * m[1] + 4 * m[2] + 8 * m[3]
  have hbits : #v[n % 2, n / 2 % 2, n / 4 % 2, n / 8 % 2] = m := by
    rw [vector4_eq m]
    congr <;> omega
  have hrun := List.all_eq_true.mp h n (List.mem_range.mpr (by omega))
  simpa [hbits, and_assoc] using hrun

theorem ascending_quad {v : Vector Vertex 4} :
    Ascending v ↔ v[0].y.toInt ≤ v[1].y.toInt ∧ v[1].y.toInt ≤ v[2].y.toInt ∧ v[2].y.toInt ≤ v[3].y.toInt := by
  constructor
  · exact fun h => ⟨h.le (i := 0) (j := 1) (by decide), h.le (i := 1) (j := 2) (by decide),
      h.le (i := 2) (j := 3) (by decide)⟩
  · rintro ⟨h01, h12, h23⟩
    rw [vector4_eq v]
    simp [Ascending]
    omega

/-- A network that sorts every marking sorts the vertices (R111). -/
theorem sort4_ascending {net : Vector (Fin 4 × Fin 4) 6} (h : netSorts net = true) (v : Vector Vertex 4) :
    Ascending (sort4 net v) := by
  have hsorted (bound : Int) := netSorts_sorted h (m := marksAbove bound v) fun i => by
    rw [marksAbove_getElem]
    split <;> omega
  simp only [← marksAbove_sort4] at hsorted
  rw [ascending_quad]
  exact ⟨marksAbove_le_iff (i := 0) (j := 1).mp fun bound => (hsorted bound).1,
    marksAbove_le_iff (i := 1) (j := 2).mp fun bound => (hsorted bound).2.1,
    marksAbove_le_iff (i := 2) (j := 3).mp fun bound => (hsorted bound).2.2⟩

/-- A network that compares earlier with later positions moves nothing where the ys rise. -/
theorem sort4_of_ascending {net : Vector (Fin 4 × Fin 4) 6} (h : ∀ pq ∈ net.toList, pq.1 < pq.2) {v : Vector Vertex 4}
    (hv : Ascending v) : sort4 net v = v :=
  List.foldlRecOn net.toList _ (motive := (· = v)) rfl fun _ hu pq hpq => by
    rw [hu]
    exact hv.cas_eq (h pq hpq)

/-! ## The default quad network -/

theorem cas_quad_01 (a b c d : Vertex) :
    cas #v[a, b, c, d] 0 1 = if b.y.toInt < a.y.toInt then #v[b, a, c, d] else #v[a, b, c, d] := rfl

theorem cas_quad_02 (a b c d : Vertex) :
    cas #v[a, b, c, d] 0 2 = if c.y.toInt < a.y.toInt then #v[c, b, a, d] else #v[a, b, c, d] := rfl

theorem cas_quad_03 (a b c d : Vertex) :
    cas #v[a, b, c, d] 0 3 = if d.y.toInt < a.y.toInt then #v[d, b, c, a] else #v[a, b, c, d] := rfl

/-- A vertex in front of three. -/
def prepend (a : Vertex) (r : Vector Vertex 3) : Vector Vertex 4 := #v[a, r[0], r[1], r[2]]

theorem prepend_getElem_succ (a : Vertex) (r : Vector Vertex 3) (p : Fin 3) : (prepend a r)[p.succ] = r[p] := by
  fin_cases p <;> rfl

theorem prepend_set_succ (a : Vertex) (r : Vector Vertex 3) (p : Fin 3) (x : Vertex) :
    (prepend a r).set p.succ x = prepend a (r.set p x) := by
  rw [vector3_eq r]
  fin_cases p <;> rfl

/-- CAS behind the first position is CAS on the rest. -/
theorem cas_prepend (a : Vertex) (r : Vector Vertex 3) (p q : Fin 3) :
    cas (prepend a r) p.succ q.succ = prepend a (cas r p q) := by
  simp only [cas, prepend_getElem_succ, prepend_set_succ]
  split <;> rfl

theorem prepend_head_tail (u : Vector Vertex 4) : prepend u[0] #v[u[1], u[2], u[3]] = u := (vector4_eq u).symm

/-- The last three CAS of the default network are the triangle network on the last three positions (R111). -/
theorem cas_tail_eq_sort3 (u : Vector Vertex 4) :
    cas (cas (cas u 1 2) 1 3) 2 3 = prepend u[0] (sort3 #v[u[1], u[2], u[3]]) := by
  rw [sort3, ← cas_prepend, ← cas_prepend, ← cas_prepend, prepend_head_tail]
  rfl

/-- Settles O47: a legal network sorts by its check and moves no rising vertices, and in R111's corner cases the triangle
network's own order of equal ys decides. -/
theorem sort4Sorts : Obligations.Sort4Sorts := by
  refine ⟨wellFormed_default, rfl, fun p v ⟨hpairs, hnet⟩ =>
    ⟨sort4_ascending hnet v, sort4_perm _ v, sort4_of_ascending hpairs⟩,
    fun v => ⟨sort4_default v, (sort4_default v).trans (cas_tail_eq_sort3 _)⟩,
    fun a b c d => ⟨fun hab hbc hdc => ?_, fun hab hcb hcd => ?_⟩⟩
  · have hfirst : cas (cas (cas #v[a, b, c, d] 0 1) 0 2) 0 3 = #v[d, b, c, a] := by
      rw [cas_quad_01, if_neg (by omega), cas_quad_02, if_neg (by omega), cas_quad_03, if_pos (by omega)]
    rw [sort4_default, cas_tail_eq_sort3, hfirst]
    exact congrArg (prepend d) (sort3_of_rising hbc.le (hab.trans hbc).ge)
  · have hfirst : cas (cas (cas #v[a, b, c, d] 0 1) 0 2) 0 3 = #v[c, b, a, d] := by
      rw [cas_quad_01, if_neg (by omega), cas_quad_02, if_pos (by omega), cas_quad_03, if_neg (by omega)]
    rw [sort4_default, cas_tail_eq_sort3, hfirst]
    exact congrArg (prepend c) (sort3_of_equal_then_lower (hcd ▸ hcb) hab.symm)

end Sys2Proof.Machine
end

section
/-! PROOFS. Edge selection (O50 to O53) and one turn of the polygon loop (O49): the signs and the sub-range pick a row, and the
sorted ends are two of the polygon's own vertices, the lowest and the highest under a legal network. -/

namespace Sys2Proof.Machine

/-! ## Sides and sub-ranges -/

theorem isRight_of_pos {top v bottom : Vertex} (h : 0 < cross top v bottom) : isRight top v bottom = true :=
  decide_eq_true h

theorem isRight_of_nonpos {top v bottom : Vertex} (h : cross top v bottom ≤ 0) : isRight top v bottom = false :=
  decide_eq_false (not_lt.mpr h)

/-- The bottom vertex lies on its own line. -/
theorem cross_bottom (top bottom : Vertex) : cross top bottom bottom = 0 := by
  rw [cross, mul_comm, sub_self]

/-! ## The triangle's table -/

/-- Settles O50, one row for each sign and sub-range; the stated cross2 is `cross` of the three vertices. -/
theorem triangleEdgeTable : Obligations.TriangleEdgeTable := by
  intro v1 v2 v3 line cross2
  have hcross : cross2 = cross v1 v2 v3 := rfl
  simp only [hcross]
  refine ⟨fun hc hl => ?_, fun hc hl => ?_, fun hc hl => ?_, fun hc hl => ?_⟩
  · simp [triEdges, isRight_of_pos hc, hl]
  · simp [triEdges, isRight_of_pos hc, hl.not_gt]
  · simp [triEdges, isRight_of_nonpos hc, hl]
  · simp [triEdges, isRight_of_nonpos hc, hl.not_gt]

/-! ## The quad's table -/

theorem quadRange_upper {v : Vector Vertex 4} {line : Int} (h : line < v[1].y.toInt) : quadRange v line = 0 := if_pos h

theorem quadRange_middle {v : Vector Vertex 4} {line : Int} (h1 : v[1].y.toInt ≤ line) (h2 : line < v[2].y.toInt) :
    quadRange v line = 1 := by
  rw [quadRange, if_neg (not_lt.mpr h1), if_pos h2]

theorem quadRange_lower {v : Vector Vertex 4} {line : Int} (h1 : v[1].y.toInt ≤ line) (h2 : v[2].y.toInt ≤ line) :
    quadRange v line = 2 := by
  rw [quadRange, if_neg (not_lt.mpr h1), if_neg (not_lt.mpr h2)]

/-- The edges a row of the table names among four vertices (R122). -/
def pickEdges (e : QuadEdges) (v : Vector Vertex 4) : EdgePair := ⟨v[e.a], v[e.b], v[e.c], v[e.d]⟩

/-- For known signs, the three sub-ranges select the three rows of their group (R120, R122). -/
theorem quadEdges_of_signs {v1 v2 v3 v4 : Vertex} {right2 right3 : Bool} (h2 : isRight v1 v2 v4 = right2)
    (h3 : isRight v1 v3 v4 = right3) (table : Vector QuadEdges 12) (line : Int) :
    let v := #v[v1, v2, v3, v4]
    let row (range : Fin 3) := pickEdges table[quadRow (quadSignRow right2 right3) range] v
    (line < v2.y.toInt → quadEdges table v line = row 0) ∧
    (v2.y.toInt ≤ line ∧ line < v3.y.toInt → quadEdges table v line = row 1) ∧
    (v2.y.toInt ≤ line ∧ v3.y.toInt ≤ line → quadEdges table v line = row 2) := by
  intro v row
  have hrow {range : Fin 3} (hr : quadRange v line = range) : quadEdges table v line = row range := by
    subst h2 h3 hr
    rfl
  exact ⟨fun h => hrow (quadRange_upper h), fun h => hrow (quadRange_middle h.1 h.2),
    fun h => hrow (quadRange_lower h.1 h.2)⟩

/-- Settles O51, one group of three rows for each pair of signs. -/
theorem quadEdgeTable : Obligations.QuadEdgeTable := by
  intro v1 v2 v3 v4 line cross2 cross3 e range0 range1 range2
  exact ⟨fun h2 h3 => quadEdges_of_signs (isRight_of_pos h2) (isRight_of_pos h3) defaultQuadEdgeTable line,
    fun h2 h3 => quadEdges_of_signs (isRight_of_nonpos h2) (isRight_of_nonpos h3) defaultQuadEdgeTable line,
    fun h2 h3 => quadEdges_of_signs (isRight_of_pos h2) (isRight_of_nonpos h3) defaultQuadEdgeTable line,
    fun h2 h3 => quadEdges_of_signs (isRight_of_nonpos h2) (isRight_of_pos h3) defaultQuadEdgeTable line⟩

/-- Settles O52: v3 = v4 counts as left and the line is in no third sub-range, which leaves four rows, equal to the
triangle's. -/
theorem degenerateQuadIsTriangle : Obligations.DegenerateQuadIsTriangle := by
  intro v1 v2 v4 line hline
  obtain ⟨tri_right_upper, tri_right_lower, tri_left_upper, tri_left_lower⟩ := triangleEdgeTable v1 v2 v4 line
  obtain ⟨-, quad_left, quad_right, -⟩ := quadEdgeTable v1 v2 v4 v4 line
  have hbottom := (cross_bottom v1 v4).le
  rcases lt_or_ge 0 (cross v1 v2 v4) with hcross | hcross <;> rcases lt_or_ge line v2.y.toInt with hl | hl
  · exact ((quad_right hcross hbottom).1 hl).trans (tri_right_upper hcross hl).symm
  · exact ((quad_right hcross hbottom).2.1 ⟨hl, hline⟩).trans (tri_right_lower hcross hl).symm
  · exact ((quad_left hcross hbottom).1 hl).trans (tri_left_upper hcross hl).symm
  · exact ((quad_left hcross hbottom).2.1 ⟨hl, hline⟩).trans (tri_left_lower hcross hl).symm

/-! ## Edges of sorted vertices -/

/-- Settles O53: every row of the triangle's table goes from an earlier to a later position, and so does every row of a legal
quad table. -/
theorem edgesDescendOnSortedVertices : Obligations.EdgesDescendOnSortedVertices := by
  refine ⟨fun v line hv => ?_, fun p v line hp hv => ?_⟩
  · have h01 : v[0].y.toInt ≤ v[1].y.toInt := hv.le (i := 0) (j := 1) (by decide)
    have h12 : v[1].y.toInt ≤ v[2].y.toInt := hv.le (i := 1) (j := 2) (by decide)
    have h02 := h01.trans h12
    unfold triEdges
    split
    · exact ⟨h02, h01⟩
    · exact ⟨h02, h12⟩
    · exact ⟨h01, h02⟩
    · exact ⟨h12, h02⟩
  · obtain ⟨hab, hcd⟩ := hp _ (Vector.mem_toList_iff.mpr (Vector.getElem_mem
      (quadRow (quadSignRow (isRight v[0] v[1] v[3]) (isRight v[0] v[2] v[3])) (quadRange v line)).isLt))
    exact ⟨hv.le hab, hv.le hcd⟩

/-! ## One turn of the polygon loop -/

/-- In a sorted permutation of a list, the ends are of the list, and no vertex of the list lies outside them. -/
theorem sorted_ends {n : Nat} {v : Vector Vertex (n + 1)} {l : List Vertex} (hperm : v.toList.Perm l) :
    v[0] ∈ l ∧ v[n] ∈ l ∧ (Ascending v → ∀ u ∈ l, v[0].y.toInt ≤ u.y.toInt ∧ u.y.toInt ≤ v[n].y.toInt) := by
  refine ⟨hperm.mem_iff.mp (by simp), hperm.mem_iff.mp (by simp), fun hv u hu => ?_⟩
  obtain ⟨i, hi, rfl⟩ := Vector.mem_iff_getElem.mp (Vector.mem_toList_iff.mp (hperm.mem_iff.mpr hu))
  constructor
  · rcases Nat.eq_zero_or_pos i with rfl | hpos
    · exact le_rfl
    · exact hv.le (i := 0) (j := ⟨i, hi⟩) hpos
  · rcases (Nat.le_of_lt_succ hi).eq_or_lt with rfl | hlt
    · exact le_rfl
    · exact hv.le (i := ⟨i, hi⟩) (j := Fin.last n) hlt

/-- What rejection tests are two vertices of the polygon, under a legal network the lowest and the highest (R110, R111,
R113). -/
theorem Polygon.exists_sorted_ends (p : Params) (poly : Polygon) :
    ∃ first ∈ poly.normalized p.normOverflow, ∃ last ∈ poly.normalized p.normOverflow,
      (∀ line, poly.outside p line = outsideY first last line) ∧
      (p.NetSorts → ∀ v ∈ poly.normalized p.normOverflow, first.y.toInt ≤ v.y.toInt ∧ v.y.toInt ≤ last.y.toInt) := by
  cases poly with
  | triangle slots =>
    obtain ⟨hfirst, hlast, hbetween⟩ := sorted_ends (sort3_perm (slots.map (normalizeVertex p.normOverflow)))
    exact ⟨_, hfirst, _, hlast, fun line => rfl, fun _ => hbetween (sort3_ascending _)⟩
  | quad slots =>
    obtain ⟨hfirst, hlast, hbetween⟩ :=
      sorted_ends (sort4_perm p.quadSortNet (slots.map (normalizeVertex p.normOverflow)))
    exact ⟨_, hfirst, _, hlast, fun line => rfl, fun hnet => hbetween (sort4_ascending hnet.2 _)⟩

/-- The choice between keeping the buffer and drawing, by the line's place between the ends (R113). -/
theorem ite_outsideY {α : Type} (first last : Vertex) (line : Int) (skipped drawn : α) :
    (if outsideY first last line then skipped else drawn) =
      if first.y.toInt ≤ line ∧ line ≤ last.y.toInt then drawn else skipped := by
  simp only [← outsideY_eq_false]
  cases outsideY first last line <;> rfl

/-- Settles O49: the line is compared with the sorted ends, which are the polygon's own vertices. -/
theorem polygonOffLineChangesNothing : Obligations.PolygonOffLineChangesNothing := by
  refine ⟨fun p line buf poly hoff => ?_, fun p line buf slots => ?_, fun p line buf slots => ?_,
    fun p line buf poly hnet habove hbelow => ?_⟩
  · obtain ⟨first, hfirst, last, hlast, houtside, -⟩ := poly.exists_sorted_ends p
    rw [drawPolygon_eq, houtside, ite_outsideY, if_neg]
    rintro ⟨hge, hle⟩
    rcases hoff with hoff | hoff
    · exact (hoff first hfirst).not_ge hge
    · exact (hoff last hlast).not_ge hle
  · intro v
    rw [← ite_outsideY]
    rfl
  · intro v
    rw [← ite_outsideY]
    rfl
  · obtain ⟨first, -, last, -, houtside, hbetween⟩ := poly.exists_sorted_ends p
    obtain ⟨u, hu, hul⟩ := habove
    obtain ⟨v, hv, hlv⟩ := hbelow
    have hin : poly.outside p line = false := by
      rw [houtside, outsideY_eq_false]
      exact ⟨(hbetween hnet u hu).1.trans hul, hlv.trans (hbetween hnet v hv).2⟩
    exact ⟨hin, by simp [drawPolygon_eq, hin]⟩

end Sys2Proof.Machine
end

section
/-! PROOFS. Span fill: the clamped span (O54), what rasterize leaves at each pixel (O55), and the ends of the ramp (O56). -/

namespace Sys2Proof.Machine

/-! ## The span -/

/-- The span: aborted when an edge lies beyond the far side of the screen, and clamped otherwise (R124, R125). -/
theorem spanOf_eq (arith : InterpArith) (line : Int) (e : EdgePair) :
    spanOf arith line e =
      if 255 < edgeX arith e.a e.b line ∨ edgeX arith e.c e.d line < 0 then none
      else some ⟨max (edgeX arith e.a e.b line) 0, min (edgeX arith e.c e.d line) 255⟩ := by
  unfold spanOf
  dsimp only
  generalize edgeX arith e.a e.b line = l
  generalize edgeX arith e.c e.d line = r
  have hleft : (if l < 0 then 0 else l) = max l 0 := by split <;> omega
  have hright : (if r > 255 then 255 else r) = min r 255 := by split <;> omega
  rw [hleft, hright]
  rcases lt_or_ge 255 l with hl | hl
  · rw [if_pos (by omega), if_pos (.inl hl)]
  · rw [if_neg (by omega)]
    rcases lt_or_ge r 0 with hr | hr
    · rw [if_pos (by omega), if_pos (.inr hr)]
    · rw [if_neg (by omega), if_neg (by omega)]

/-- Settles O54, from the span's equation; the clamps keep the bounds of a span that is not aborted on the screen. -/
theorem spanClamps : Obligations.SpanClamps := by
  intro arith line e l r
  have hspan : spanOf arith line e = if 255 < l ∨ r < 0 then none else some ⟨max l 0, min r 255⟩ := spanOf_eq ..
  refine ⟨fun hoff => ?_, fun hl hr => ?_, fun sp hsp => ?_⟩
  · rw [if_pos hoff] at hspan
    exact ⟨hspan, fun buf => by rw [rasterize, hspan]⟩
  · rw [hspan, if_neg (by omega)]
  · rw [hsp] at hspan
    split_ifs at hspan with hoff
    obtain rfl := Option.some.inj hspan
    dsimp only
    omega

/-! ## One pixel -/

/-- Pixel `x` is written: it lies in the span and passes the depth test (R126, R128). -/
def WritesPixel (arith : InterpArith) (line : Int) (e : EdgePair) (sp : Span) (buf : LineBuf) (x : Fin 256) : Prop :=
  sp.lx0 ≤ x.val ∧ (x.val : Int) ≤ sp.lx1 ∧ pixelDepth arith line e sp x ≤ buf.depths[x].toInt

section
variable {arith : InterpArith} {line : Int} {e : EdgePair} {sp : Span} {buf : LineBuf} {x : Fin 256}

theorem rasterize_of_span (hsp : spanOf arith line e = some sp) :
    rasterize arith line e buf = sp.pixels.foldl (fillPixel arith line e sp) buf := by
  rw [rasterize, hsp]

/-- A pixel inside the span is left as its own iteration leaves it (R134). -/
theorem rasterize_of_mem (hsp : spanOf arith line e = some sp) (hx : x ∈ sp.pixels) :
    (rasterize arith line e buf).pixels[x] = (fillPixel arith line e sp buf x).pixels[x] ∧
    (rasterize arith line e buf).depths[x] = (fillPixel arith line e sp buf x).depths[x] := by
  rw [rasterize_of_span hsp]
  exact foldl_fillPixel_mem arith line e sp x sp.pixels sp.nodup_pixels buf hx

theorem rasterize_of_writesPixel (hsp : spanOf arith line e = some sp) (hw : WritesPixel arith line e sp buf x) :
    (rasterize arith line e buf).pixels[x] = pixelColor arith line e sp x ∧
    (rasterize arith line e buf).depths[x] = BitVec.ofInt 32 (pixelDepth arith line e sp x) := by
  obtain ⟨hlo, hhi, hz⟩ := hw
  obtain ⟨hpixel, hdepth⟩ := rasterize_of_mem (buf := buf) hsp ((sp.mem_pixels x).mpr ⟨hlo, hhi⟩)
  obtain ⟨hself, hself'⟩ := fillPixel_self arith line e sp buf x
  exact ⟨hpixel.trans (hself.trans (if_pos hz)), hdepth.trans (hself'.trans (if_pos hz))⟩

theorem rasterize_of_not_writesPixel (hsp : spanOf arith line e = some sp) (hw : ¬ WritesPixel arith line e sp buf x) :
    (rasterize arith line e buf).pixels[x] = buf.pixels[x] ∧ (rasterize arith line e buf).depths[x] = buf.depths[x] := by
  by_cases hx : x ∈ sp.pixels
  · have hz : ¬ pixelDepth arith line e sp x ≤ buf.depths[x].toInt := by
      obtain ⟨hlo, hhi⟩ := (sp.mem_pixels x).mp hx
      exact fun hz => hw ⟨hlo, hhi, hz⟩
    obtain ⟨hpixel, hdepth⟩ := rasterize_of_mem (buf := buf) hsp hx
    obtain ⟨hself, hself'⟩ := fillPixel_self arith line e sp buf x
    exact ⟨hpixel.trans (hself.trans (if_neg hz)), hdepth.trans (hself'.trans (if_neg hz))⟩
  · rw [rasterize_of_span hsp]
    exact foldl_fillPixel_not_mem arith line e sp x sp.pixels buf hx

end

theorem isInt32_toInt (w : Word) : IsInt32 w.toInt := ⟨BitVec.le_toInt _, Int.le_sub_one_of_lt BitVec.toInt_lt⟩

/-- A pixel's depth is an int32, so its word loses nothing (R98, R99, R130). -/
theorem toInt_ofInt_pixelDepth (arith : InterpArith) (line : Int) (e : EdgePair) (sp : Span) (x : Fin 256) :
    (BitVec.ofInt 32 (pixelDepth arith line e sp x)).toInt = pixelDepth arith line e sp x := by
  have hedge (p q : Vertex) : IsInt32 (edgeZ arith p q line) :=
    interpolateFitsInt32 _ _ _ _ _ _ (isInt32_toInt p.z) (isInt32_toInt q.z)
  obtain ⟨hlo, hhi⟩ : IsInt32 (pixelDepth arith line e sp x) :=
    interpolateFitsInt32 _ _ _ _ _ _ (hedge e.a e.b) (hedge e.c e.d)
  exact BitVec.toInt_ofInt_eq_self (by norm_num) hlo (Int.lt_of_le_sub_one hhi)

/-- Settles O55, by whether the pixel is written. -/
theorem rasterizePixelwise : Obligations.RasterizePixelwise := by
  intro arith line e sp buf x hsp z1 z2 color1 color2 z color out
  refine ⟨⟨rfl, rfl⟩, fun hw => ?_, rasterize_of_not_writesPixel hsp⟩
  obtain ⟨hpixel, hdepth⟩ := rasterize_of_writesPixel hsp hw
  exact ⟨hpixel, by rw [hdepth]; exact toInt_ofInt_pixelDepth arith line e sp x⟩

/-! ## The ends of the ramp -/

/-- An opaque color is packed from its own channels. -/
theorem packColor_channels {c : Half} (h : c.getLsbD 15 = true) : packColor (blue c) (green c) (red c) = c := by
  have hbit : c.toNat / 2 ^ 15 % 2 = 1 := by
    simpa [BitVec.getLsbD, Nat.testBit_eq_decide_div_mod_eq] using h
  have := c.isLt
  rw [← BitVec.toNat_inj, packColor_toNat, red_toNat, green_toNat, blue_toNat]
  omega

/-- At the first end an opaque color is kept. -/
theorem interpolateColor_exact_start {c : Half} (h : c.getLsbD 15 = true) (d : Half) {start stop : Int}
    (hlt : start < stop) : interpolateColor .exact c d start start stop = c := by
  have hchannel (a b : BitVec 5) : interpolateChannel .exact a b start start stop = a := by
    have hstart : interpolate .exact a.toNat b.toNat start start stop = a.toNat :=
      interpolateExact_of_gradient_zero (exactGradient_of_le_start hlt le_rfl)
    simp [interpolateChannel, hstart]
  rw [interpolateColor, hchannel, hchannel, hchannel, packColor_channels h]

/-- At the second end an opaque color is reached. -/
theorem interpolateColor_exact_stop (c : Half) {d : Half} (h : d.getLsbD 15 = true) {start stop : Int}
    (hlt : start < stop) : interpolateColor .exact c d start stop stop = d := by
  have hchannel (a b : BitVec 5) : interpolateChannel .exact a b start stop stop = b := by
    have hstop : interpolate .exact a.toNat b.toNat start stop stop = b.toNat :=
      interpolateExact_of_gradient_one hlt.ne (exactGradient_of_stop_le hlt le_rfl)
    simp [interpolateChannel, hstop]
  rw [interpolateColor, hchannel, hchannel, hchannel, packColor_channels h]

/-- Settles O56: at a bound the gradient across the span is 0 or 1, and an edge's color is opaque. -/
theorem clampedRampEnds : Obligations.ClampedRampEnds := by
  intro line e sp x hsp hlt
  refine ⟨fun hx => ?_, fun hx => ?_⟩ <;> rw [pixelDepth, pixelColor, hx]
  · exact ⟨interpolateExact_of_gradient_zero (exactGradient_of_le_start hlt le_rfl),
      interpolateColor_exact_start (interpolateColor_getLsbD_15 ..) _ hlt⟩
  · exact ⟨interpolateExact_of_gradient_one hlt.ne (exactGradient_of_stop_le hlt le_rfl),
      interpolateColor_exact_stop _ (interpolateColor_getLsbD_15 ..) hlt⟩

end Sys2Proof.Machine
end

section
/-! PROOFS. drawScanline: the polygon loop turn by turn (O57), depths that never rise (O59), and the later of two equal depths
(O60). -/

namespace Sys2Proof.Machine

/-! ## The polygon loop -/

theorem drawScanline_append (p : Params) (line : Byte) (polys more : List Polygon) :
    drawScanline p line (polys ++ more) = more.foldl (drawPolygon p line.toNat) (drawScanline p line polys) :=
  List.foldl_append

theorem LineBuf.cleared_pixel (x : Fin 256) : LineBuf.cleared.pixels[x] = clearPixel := by
  simp [LineBuf.cleared]

theorem LineBuf.cleared_depth (x : Fin 256) : LineBuf.cleared.depths[x].toInt = 2 ^ 31 - 1 := by
  simp [LineBuf.cleared, zSentinel]

/-- What an untainted engine step leaves in its slot and in ZBUF (R144). -/
theorem State.engineStep_of_untainted {s : State} (h : s.taint = false) :
    s.engineStep.lc[slotOf s.pendLine] = (drawScanline s.params s.pendLine s.polygons).pixels ∧
    s.engineStep.zbuf = (drawScanline s.params s.pendLine s.polygons).depths := by
  simp [State.drawnLine, h]

/-- Settles O57: the loop is a left fold from the cleared line, and COUNT = 0 leaves it nothing to fold over. -/
theorem emptyListClearsLine : Obligations.EmptyListClearsLine := by
  refine ⟨fun p line => ⟨rfl, fun x => ⟨LineBuf.cleared_pixel x, LineBuf.cleared_depth x⟩, fun polys poly =>
    drawScanline_append p line polys [poly]⟩, fun s hdue htaint hcount => ⟨s.engineStep, step_engine hdue, fun x => ?_⟩⟩
  have hnone : s.polygons = [] := by simp [State.polygons, hcount]
  obtain ⟨hlc, hzbuf⟩ := s.engineStep_of_untainted htaint
  rw [hlc, hzbuf, hnone]
  exact ⟨LineBuf.cleared_pixel x, LineBuf.cleared_depth x⟩

/-! ## Depths -/

theorem rasterize_depth_le (arith : InterpArith) (line : Int) (e : EdgePair) (buf : LineBuf) (x : Fin 256) :
    (rasterize arith line e buf).depths[x].toInt ≤ buf.depths[x].toInt := by
  rcases hsp : spanOf arith line e with _ | sp
  · rw [rasterize, hsp]
  · by_cases hw : WritesPixel arith line e sp buf x
    · rw [(rasterize_of_writesPixel hsp hw).2, toInt_ofInt_pixelDepth]
      exact hw.2.2
    · rw [(rasterize_of_not_writesPixel hsp hw).2]

theorem drawPolygon_depth_le (p : Params) (line : Int) (buf : LineBuf) (poly : Polygon) (x : Fin 256) :
    (drawPolygon p line buf poly).depths[x].toInt ≤ buf.depths[x].toInt := by
  rw [drawPolygon_eq]
  split
  · exact le_rfl
  · exact rasterize_depth_le ..

/-- Settles O59: the depths of the shorter list bound those of every further turn. -/
theorem depthNeverIncreases : Obligations.DepthNeverIncreases := by
  intro p line polys more x
  rw [drawScanline_append]
  exact List.foldlRecOn more _ (motive := fun buf => buf.depths[x].toInt ≤ (drawScanline p line polys).depths[x].toInt)
    le_rfl fun buf hle poly _ => (drawPolygon_depth_le p line.toNat buf poly x).trans hle

/-- The turn of a polygon that reaches the line and covers the pixel no deeper than what is there. -/
theorem drawPolygon_of_writesPixel {p : Params} {line : Int} {buf : LineBuf} {poly : Polygon} {sp : Span} {x : Fin 256}
    (hin : poly.outside p line = false) (hsp : spanOf p.interpArith line (poly.edges p line) = some sp)
    (hw : WritesPixel p.interpArith line (poly.edges p line) sp buf x) :
    (drawPolygon p line buf poly).pixels[x] = pixelColor p.interpArith line (poly.edges p line) sp x ∧
    (drawPolygon p line buf poly).depths[x].toInt = pixelDepth p.interpArith line (poly.edges p line) sp x := by
  obtain ⟨hpixel, hdepth⟩ := rasterize_of_writesPixel hsp hw
  rw [drawPolygon_eq, hin, if_neg Bool.false_ne_true, hdepth]
  exact ⟨hpixel, toInt_ofInt_pixelDepth ..⟩

/-- Settles O60: the first polygon leaves its own depth, which the later one's equal depth passes. -/
theorem depthTieGoesToLater : Obligations.DepthTieGoesToLater := by
  intro p line polys first later su sv x L u v hin_u hin_v hsu hsv hu0 hu1 hv0 hv1 htie htest
  obtain ⟨-, hdepth⟩ := drawPolygon_of_writesPixel hin_u hsu ⟨hu0, hu1, htest⟩
  rw [drawScanline_append]
  exact (drawPolygon_of_writesPixel hin_v hsv ⟨hv0, hv1, (htie.symm.trans hdepth.symm).le⟩).1

end Sys2Proof.Machine
end

section
/-! PROOFS. What a draw reads of the state: the used words of the live entries and four parameters (O33); and that every step
answers (O9). -/

namespace Sys2Proof.Machine

/-- Word `k` of slot `j`, by its offset. -/
theorem State.entryWord_slot (i j k : Nat) (s : State) :
    s.entryWord i (1 + k + 5 * j) = s.pramWord (0x40000 + 128 * i + 4 + 20 * j + 4 * k) := by
  rw [State.entryWord, pramOffset, pramBase]
  congr 1
  omega

/-- Equal used words make equal vertices (R33). -/
theorem State.vertexSlot_congr {i j : Nat} {s t : State}
    (hcoord : ∀ k < 4, s.pramWord (0x40000 + 128 * i + 4 + 20 * j + 4 * k) = t.pramWord (0x40000 + 128 * i + 4 + 20 * j + 4 * k))
    (hcolor : (s.pramWord (0x40000 + 128 * i + 20 + 20 * j)).toNat % 65536 =
      (t.pramWord (0x40000 + 128 * i + 20 + 20 * j)).toNat % 65536) :
    s.vertexSlot i j = t.vertexSlot i j := by
  have hword (k : Nat) (hk : k < 4) : s.entryWord i (1 + k + 5 * j) = t.entryWord i (1 + k + 5 * j) := by
    rw [State.entryWord_slot, State.entryWord_slot, hcoord k hk]
  have hoffset : 0x40000 + 128 * i + 4 + 20 * j + 4 * 4 = 0x40000 + 128 * i + 20 + 20 * j := by omega
  have hhalf : (s.entryWord i (5 + 5 * j)).extractLsb' 0 16 = (t.entryWord i (5 + 5 * j)).extractLsb' 0 16 := by
    rw [s.entryWord_slot i j 4, t.entryWord_slot i j 4, hoffset, ← BitVec.toNat_inj]
    simpa using hcolor
  rw [State.vertexSlot, State.vertexSlot, hword 0 (by norm_num), hword 1 (by norm_num), hword 2 (by norm_num),
    hword 3 (by norm_num), hhalf]

theorem State.isQuad_eq (i : Nat) (s : State) : s.isQuad i = (s.pramWord (0x40000 + 128 * i)).getLsbD 0 := rfl

/-- Equal used words make equal polygons: KIND says which slots are read (R32, R35). -/
theorem State.polygon_congr {i : Nat} {s t : State} (h : SameUsedWords i s t) : s.polygon i = t.polygon i := by
  obtain ⟨hkind, hslots⟩ := h
  simp only [← State.isQuad_eq] at hkind hslots
  have hslot (j : Nat) (hj : j < if s.isQuad i then 4 else 3) : s.vertexSlot i j = t.vertexSlot i j :=
    State.vertexSlot_congr (hslots j hj).1 (hslots j hj).2
  unfold State.polygon
  rw [← hkind]
  split
  · next hquad =>
    rw [if_pos hquad] at hslot
    simp only [hslot 0 (by norm_num), hslot 1 (by norm_num), hslot 2 (by norm_num), hslot 3 (by norm_num)]
  · next htriangle =>
    rw [if_neg htriangle] at hslot
    simp only [hslot 0 (by norm_num), hslot 1 (by norm_num), hslot 2 (by norm_num)]

theorem State.polygons_of_sameUsedWords {s t : State} (hcount : s.polyCount = t.polyCount)
    (h : ∀ i < s.polyCount.toNat, SameUsedWords i s t) : s.polygons = t.polygons := by
  rw [State.polygons, State.polygons, ← hcount]
  exact List.map_congr_left fun i hi => State.polygon_congr (h i (List.mem_range.mp hi))

/-- Settles O33: the polygons are the used words', and drawing reads four parameters. -/
theorem drawDependsOnlyOnLiveWords : Obligations.DrawDependsOnlyOnLiveWords := by
  intro s s' t t' hdue hdue' htaint htaint' harith hnorm hnet htable hline hcount hwords ht ht'
  rw [step_engine hdue] at ht
  rw [step_engine hdue'] at ht'
  obtain rfl := Host.Outcome.next.inj ht
  obtain rfl := Host.Outcome.next.inj ht'
  obtain ⟨hlc, hzbuf⟩ := s.engineStep_of_untainted htaint
  obtain ⟨hlc', hzbuf'⟩ := s'.engineStep_of_untainted htaint'
  have hdrawn : drawScanline s.params s.pendLine s.polygons = drawScanline s'.params s'.pendLine s'.polygons := by
    rw [drawScanline_congr harith hnorm hnet htable, hline, State.polygons_of_sameUsedWords hcount hwords]
  have hslot : s'.engineStep.lc[slotOf s.pendLine] = s'.engineStep.lc[slotOf s'.pendLine] := by simp only [hline]
  exact ⟨by rw [hslot, hlc, hlc', hdrawn], by rw [hzbuf, hzbuf', hdrawn]⟩

/-! ## Every step answers -/

/-- Settles O9: the engine step and no step answer by definition, and every port event has an effect. -/
theorem stepAlwaysAnswers : Obligations.StepAlwaysAnswers := by
  intro s
  by_cases hdue : s.engineDue = true
  · exact ⟨_, step_engine hdue⟩
  · rw [Bool.not_eq_true] at hdue
    rcases hport : s.port with _ | ⟨e, rest⟩
    · exact ⟨s, by simp [step, hdue, hport]⟩
    · obtain ⟨t, ht, -⟩ := portEvent_effect e (s.takeEvent rest)
      exact ⟨t, (step_presents ⟨hdue, hport⟩).trans ht⟩

end Sys2Proof.Machine
end

section
/-! PROOFS. The two commands (O4, O5) and what a step is: the presented command's meaning (O7), the engine step when it is due,
or nothing (O8). -/

namespace Sys2Proof.Machine

/-! ## The commands' words -/

/-- NOP's word is 0, and it is the only one (R75). -/
theorem decode_eq_nop_iff (w : Word) : decode w = .command .nop ↔ w = 0x00000000 := by
  constructor
  · exact fun h => (encode_of_decode h).symm
  · rintro rfl
    exact decode_encode .nop

/-- OPCODE 0x00 with anything beside it is illegal (R77). -/
theorem exists_decode_illegal_of_opcode_zero {w : Word} (hop : w.toNat / 2 ^ 24 = 0) (hne : w ≠ 0x00000000) :
    ∃ why, decode w = .illegal why := by
  have hpos : w.toNat ≠ 0 := fun h => hne (BitVec.eq_of_toNat_eq h)
  rw [exists_decode_illegal_iff]
  omega

/-- RSVD is tested before OPCODE (R77). -/
theorem decode_of_reserved {w : Word} (h : w.toNat / 2 ^ 8 % 2 ^ 16 ≠ 0) : decode w = .illegal .reservedBits := by
  rw [decode_eq, if_pos h]

/-- Settles O4: the two meanings of NOP by BUSY, and its word. -/
theorem nopHasNoEffect : Obligations.NopHasNoEffect :=
  ⟨fun _ hidle => exec_nop_idle hidle, fun _ hbusy => exec_busy .nop hbusy, decode_eq_nop_iff,
    fun _ hop hne => exists_decode_illegal_of_opcode_zero hop hne⟩

/-- Settles O5: acceptance while BUSY = 0, CommandOverrun while BUSY = 1, and RSVD. -/
theorem drawScanlineAccepted : Obligations.DrawScanlineAccepted :=
  ⟨fun _ line hidle => ⟨_, _, exec_draw_idle line hidle⟩, fun _ line hbusy => exec_busy (.drawScanline line) hbusy,
    fun _ hrsvd => decode_of_reserved hrsvd⟩

/-! ## The presented command -/

/-- A command's word written to CMD is the command's meaning; while BUSY = 1 both raise CommandOverrun (R141). -/
theorem writeCommand_of_decode {w : Word} {i : Instr} (hd : decode w = .command i) (s : State) :
    writeCommand w s = exec i s := by
  unfold writeCommand
  split
  · next hbusy => exact (exec_busy i hbusy).symm
  · rw [hd]

/-- `withFetchWord` presents the word's CMD write, ahead of a pending draw's engine step. -/
theorem State.presents_withFetchWord (s : State) (w : Word) :
    (s.withFetchWord 32 w.toNat).Presents (s.writeAt 0x4 4 w) s.port := by
  constructor
  · cases hbusy : s.status.busy with
    | false => exact engineDue_idle hbusy
    | true => simp [State.engineDue, State.withFetchWord, hbusy]
  · have hword : BitVec.ofNat 32 (w.toNat % 2 ^ 32) = w := by
      rw [Nat.mod_eq_of_lt w.isLt, BitVec.ofNat_toNat, BitVec.setWidth_eq]
    simp only [State.withFetchWord, commandWrite, hword]
    rfl

/-- Settles O7, from the CMD write; the state given to `exec` after `withFetchWord` differs from `s` in the wait alone. -/
theorem stepRunsDecodedCommand : Obligations.StepRunsDecodedCommand := by
  intro s w i hd
  have hrun (u : State) (rest : List PortEvent) (hp : u.Presents (u.writeAt 0x4 4 w) rest) :
      step u = exec i (u.takeEvent rest) :=
    (step_writeAt_cmd hp).trans (writeCommand_of_decode hd _)
  exact ⟨hrun s, _, hrun _ s.port (s.presents_withFetchWord w), rfl, rfl⟩

/-! ## The engine step and the idle block -/

/-- With nothing presented a pending draw's engine step does not wait (log entry 5). -/
theorem engineDue_of_port_nil {s : State} (hbusy : s.status.busy = true) (hport : s.port = []) : s.engineDue = true := by
  simp [State.engineDue, hbusy, hport]

/-- An idle block with nothing presented holds its state (R175). -/
theorem step_idle {s : State} (hidle : s.status.busy = false) (hport : s.port = []) : step s = .next s := by
  simp [step, engineDue_idle hidle, hport]

/-- Settles O8, from what makes the engine step due and what an idle block does. -/
theorem stepRunsEngineWhenDue : Obligations.StepRunsEngineWhenDue :=
  ⟨fun _ hdue => ⟨busy_of_engineDue hdue, step_engine hdue⟩, fun _ => engineDue_of_port_nil, fun _ => step_idle⟩

end Sys2Proof.Machine
end

section
/-! PROOFS. Word accesses over one step: the registers' reads (O17) and writes (O18), and PRAM words (O22). -/

namespace Sys2Proof.Machine

/-! ## Registers -/

/-- Settles O17: the step replies with the register at the offset, which reads as R147 says. -/
theorem registerReads : Obligations.RegisterReads := by
  intro s a rest hwf hp ha hal
  obtain ⟨⟨-, hmax⟩, -⟩ := hwf
  refine ⟨s.registerRead (registerAt a), step_readAt_register hp ha hal, ?cfg, ?cmd, ?status, ?polyCount, ?lastWritten,
    ?lastConsumed⟩
  case cfg =>
    rintro rfl
    exact cfgWord_toNat s.params (by omega)
  case cmd =>
    rintro rfl
    rfl
  case status =>
    rintro rfl
    exact Status.read_toNat s.status
  case polyCount =>
    rintro rfl
    exact BitVec.toNat_setWidth_of_le (by norm_num)
  case lastWritten =>
    rintro rfl
    exact (LastWritten.read_toNat s.lastWritten).trans (Nat.add_comm _ _)
  case lastConsumed =>
    rintro rfl
    exact BitVec.toNat_setWidth_of_le (by norm_num)

/-- COUNT's 12 bits hold the minimum with every legal MAX_POLYS (R28). -/
theorem toNat_ofNat_min_maxPolys {p : Params} (h : p.PolysInRange) (n : Nat) :
    (BitVec.ofNat 12 (min n p.maxPolys)).toNat = min n p.maxPolys := by
  obtain ⟨-, hmax⟩ := h
  rw [BitVec.toNat_ofNat]
  omega

/-- Settles O18: the step is the write of the register at the offset. -/
theorem registerWrites : Obligations.RegisterWrites := by
  intro s a v rest hwf hp ha hal _
  obtain ⟨t, ht⟩ := stepAlwaysAnswers s
  have hwrite : registerWrite (registerAt a) v (s.takeEvent rest) = .next t :=
    (step_writeAt_register hp ha hal).symm.trans ht
  refine ⟨t, ht, ?ignored, ?status, ?polyCount, ?lastConsumed⟩
  case ignored =>
    rintro (rfl | rfl)
    · exact (Host.Outcome.next.inj hwrite).symm
    · exact (Host.Outcome.next.inj hwrite).symm
  case status =>
    rintro rfl
    exact (Host.Outcome.next.inj hwrite).symm
  case polyCount =>
    rintro rfl
    exact ⟨_, toNat_ofNat_min_maxPolys hwf.1 v.toNat, (Host.Outcome.next.inj hwrite).symm⟩
  case lastConsumed =>
    rintro rfl
    exact ⟨argField v, argField_toNat v, (Host.Outcome.next.inj hwrite).symm⟩

/-! ## PRAM words -/

/-- PRAM lies in the window for every legal MAX_POLYS (R44, R45). -/
theorem pram_offset_in_window {p : Params} (h : p.PolysInRange) {a : Nat} (hhi : a < 0x40000 + 128 * p.maxPolys) :
    a < 2 ^ 19 := by
  obtain ⟨-, hmax⟩ := h
  omega

/-- Settles O22, from the step of a PRAM access and the rules of `writePram`. -/
theorem pramReadAfterWrite : Obligations.PramReadAfterWrite := by
  constructor
  · intro s a v rest hp hwf hlo hhi hal
    refine ⟨_, step_writeAt_pram hp (pram_offset_in_window hwf.1 hhi) hlo hhi hal, State.pramWord_writePram_same a v _,
      fun k hk => ?_, fun b hb => State.pramByte_writePram_other hb v _, rfl, rfl⟩
    rw [State.pramByte_writePram_same a k hk, byteOfWord_toNat]
  · intro s a rest hp hwf hlo hhi hal
    exact step_readAt_pram hp (pram_offset_in_window hwf.1 hhi) hlo hhi hal

end Sys2Proof.Machine
end

section
/-! PROOFS. An accepted DRAW_SCANLINE: what its engine step leaves (O10), that it comes (O31), the whole command from its CMD
write to its completion (O32), and the same line drawn twice (O34). -/

namespace Sys2Proof.Machine

/-! ## The live polygons -/

/-- The live polygons are COUNT in number (R108). -/
theorem State.length_polygons (s : State) : s.polygons.length = s.polyCount.toNat := by
  simp [State.polygons]

/-- The live polygon at index `i` is entry `i`'s (R109). -/
theorem State.getElem?_polygons {s : State} {i : Nat} (h : i < s.polyCount.toNat) :
    s.polygons[i]? = some (s.polygon i) := by
  simp [State.polygons, h]

/-! ## The engine step -/

/-- LC_LAST_WRITTEN as read after completion (R146). -/
theorem lastWrittenOf_read_toNat (line : Byte) :
    (lastWrittenOf line).read.toNat = line.toNat % 48 * 2 ^ 8 + line.toNat := by
  rw [LastWritten.read_toNat, lastWrittenOf_slot_toNat]
  rfl

/-- Settles O10: the polygons from their entries' words, and the engine step field by field. -/
theorem engineStepCompletes : Obligations.EngineStepCompletes := by
  refine ⟨fun s => ⟨s.length_polygons, fun i hi => ⟨fun hkind => ?_, fun hkind => ?_⟩⟩, fun s hdue => ?_⟩
  · rw [State.getElem?_polygons hi, State.polygon_triangle hkind]
    simp only [State.vertexSlot_eq]
    rfl
  · rw [State.getElem?_polygons hi, State.polygon_quad hkind]
    simp only [State.vertexSlot_eq]
    rfl
  · exact ⟨_, step_engine hdue, State.engineStep_of_untainted,
      fun k hk => State.engineStep_lc_other fun heq => hk (congrArg Fin.val heq), lastWrittenOf_read_toNat s.pendLine,
      rfl, rfl⟩

/-! ## The run to the engine step -/

/-- The engine step of a pending draw comes after at most as many host steps as there are events, and as the wait says (R145).
What every host step on the way keeps still holds there. -/
theorem runs_until_engineDue (Keeps : State → Prop) {s : State} (hbusy : s.status.busy = true)
    (hreset : ∀ e ∈ s.port, e ≠ .reset) (hs : Keeps s)
    (hkeep : ∀ e ∈ s.port, ∀ (rest : List PortEvent) (u t : State), u.status.busy = true → Keeps u →
      HostEffect e (u.takeEvent rest) t → Keeps t) :
    ∃ (k : Nat) (t : State), k ≤ s.engineWait ∧ k ≤ s.port.length ∧ Runs k s t ∧ t.engineDue = true ∧ Keeps t := by
  induction hport : s.port generalizing s with
  | nil => exact ⟨0, s, Nat.zero_le _, Nat.zero_le _, rfl, engineDue_of_port_nil hbusy hport, hs⟩
  | cons e rest ih =>
    by_cases hdue : s.engineDue = true
    · exact ⟨0, s, Nat.zero_le _, Nat.zero_le _, rfl, hdue, hs⟩
    have hwait : s.engineWait ≠ 0 := by
      intro hzero
      simp [State.engineDue, hbusy, hzero] at hdue
    rw [hport, List.forall_mem_cons] at hreset hkeep
    have hp : s.Presents e rest := ⟨Bool.not_eq_true _ ▸ hdue, hport⟩
    obtain ⟨u, hu, heff⟩ := portEvent_effect e (s.takeEvent rest)
    obtain ⟨hubusy, -, huwait, huport⟩ := heff.keeps_busy hbusy hreset.1
    rw [State.takeEvent_engineWait] at huwait
    rw [State.takeEvent_port] at huport
    obtain ⟨k, t, hkwait, hklen, hruns, ht⟩ :=
      ih hubusy (huport ▸ hreset.2) (hkeep.1 rest s u hbusy hs heff) (huport ▸ hkeep.2) huport
    exact ⟨k + 1, t, by omega, Nat.succ_le_succ hklen, ⟨u, (step_presents hp).trans hu, hruns⟩, ht⟩

/-- Settles O31: every host step but a reset keeps BUSY and PEND_LINE. -/
theorem drawProgress : Obligations.DrawProgress := by
  intro s hbusy hreset
  have hkeep : ∀ e ∈ s.port, ∀ (rest : List PortEvent) (u t : State), u.status.busy = true →
      u.pendLine = s.pendLine → HostEffect e (u.takeEvent rest) t → t.pendLine = s.pendLine := by
    intro e he rest u t hubusy hu heff
    obtain ⟨-, hline, -⟩ := heff.keeps_busy hubusy (hreset e he)
    exact hline.trans hu
  obtain ⟨k, t, hkwait, hklen, hruns, hdue, hline⟩ :=
    runs_until_engineDue (fun t => t.pendLine = s.pendLine) hbusy hreset rfl hkeep
  exact ⟨k, t, hkwait, hklen, hruns, hdue, busy_of_engineDue hdue, hline⟩

/-- `t` has the pending draw of `s`, as clean as there: the same line over the same polygons, and no error of a command new. -/
structure SameDraw (s t : State) : Prop where
  pendLine : t.pendLine = s.pendLine
  params : t.params = s.params
  polygons : t.polygons = s.polygons
  taint : t.taint = s.taint
  cmdovf : t.status.cmdovf = true → s.status.cmdovf = true
  illcmd : t.status.illcmd = true → s.status.illcmd = true

/-- An event that disturbs nothing keeps the pending draw. -/
theorem SameDraw.hostEffect {s u t : State} (h : SameDraw s u) {e : PortEvent} {rest : List PortEvent}
    (heff : HostEffect e (u.takeEvent rest) t) (hbusy : u.status.busy = true) (hr : e ≠ .reset)
    (hq : disturbs s.params e = false) : SameDraw s t := by
  rw [← h.params] at hq
  obtain ⟨-, hline, -, -, hparams, hpolygons, htaint, hcmdovf, hillcmd⟩ := heff.quiet hbusy hr hq
  exact ⟨hline.trans h.pendLine, hparams.trans h.params, hpolygons.trans h.polygons, htaint.trans h.taint,
    h.cmdovf ∘ hcmdovf, h.illcmd ∘ hillcmd⟩

/-- One more step at the end of a run. -/
theorem Runs.snoc {k : Nat} {s t u : State} (h : Runs k s t) (hstep : step t = .next u) : Runs (k + 1) s u := by
  induction k generalizing s with
  | zero =>
    obtain rfl : s = t := h
    exact ⟨u, hstep, rfl⟩
  | succ k ih =>
    obtain ⟨v, hv, hruns⟩ := h
    exact ⟨v, hv, ih hruns⟩

/-- Settles O32: acceptance, the run to the engine step with the draw undisturbed, and the engine step. -/
theorem drawScanlineDraws : Obligations.DrawScanlineDraws := by
  intro s line rest hidle hport hquiet
  have haccept := step_accept hidle ⟨engineDue_idle hidle, hport⟩ (decode_encode (.drawScanline line))
  have hkeep : ∀ e ∈ rest, ∀ (later : List PortEvent) (u t : State), u.status.busy = true →
      SameDraw ((s.takeEvent rest).accept line) u → HostEffect e (u.takeEvent later) t →
      SameDraw ((s.takeEvent rest).accept line) t := by
    intro e he later u t hbusy hu heff
    obtain ⟨hreset, hdisturbs⟩ := hquiet e he
    exact hu.hostEffect heff hbusy hreset hdisturbs
  obtain ⟨k, t, -, hk, hruns, hdue, hsame⟩ := runs_until_engineDue (SameDraw ((s.takeEvent rest).accept line)) rfl
    (fun e he => (hquiet e he).1) ⟨rfl, rfl, rfl, rfl, id, id⟩ hkeep
  have hpolygons : t.polygons = s.polygons := hsame.polygons.trans (State.polygons_congr rfl rfl rfl)
  obtain rfl : t.pendLine = line := hsame.pendLine
  obtain ⟨hlc, hzbuf⟩ := t.engineStep_of_untainted hsame.taint
  rw [hsame.params, hpolygons] at hlc hzbuf
  exact ⟨k + 2, t.engineStep, Nat.add_le_add_right hk 2, ⟨_, haccept, hruns.snoc (step_engine hdue)⟩, hlc, hzbuf, rfl,
    lastWrittenOf_slot_toNat _, rfl, rfl, hsame.cmdovf, hsame.illcmd⟩

/-! ## The same line again -/

/-- What an accepted DRAW_SCANLINE's engine step leaves in the line's slot. -/
theorem State.accept_engineStep_lc (s : State) (line : Byte) :
    (s.accept line).engineStep.lc[slotOf line] = (drawScanline s.params line s.polygons).pixels := by
  have hpolygons : (s.accept line).polygons = s.polygons := State.polygons_congr rfl rfl rfl
  rw [← hpolygons]
  exact ((s.accept line).engineStep_of_untainted rfl).1

/-- Settles O34: completion leaves BUSY = 0, and the engine step leaves the polygons alone. -/
theorem redrawIsRepeatable : Obligations.RedrawIsRepeatable := by
  intro s line hidle
  refine ⟨_, _, exec_draw_idle line hidle, exec_draw_idle line rfl, ?_⟩
  have hpolygons : (s.accept line).engineStep.polygons = s.polygons := State.polygons_congr rfl rfl rfl
  rw [State.accept_engineStep_lc, State.accept_engineStep_lc, hpolygons]
  rfl

end Sys2Proof.Machine
end

section
/-! PROOFS. CommandOverrun beside the draw in progress (O6), and the order of the three errors, at most one per step (O12). -/

namespace Sys2Proof.Machine

/-! ## A CMD write while BUSY = 1 -/

/-- A word written to CMD while BUSY = 1 raises CommandOverrun before it is decoded (R141, R161). -/
theorem step_overrun {s : State} {w : Word} {rest : List PortEvent} (h : s.Presents (s.writeAt 0x4 4 w) rest)
    (hbusy : s.status.busy = true) : step s = .next ((s.takeEvent rest).raise .commandOverrun) := by
  rw [step_writeAt_cmd h, writeCommand_eq]
  simp [hbusy]

/-- Completion writes BUSY and LW_VALID, an error its own bit: their order does not matter. -/
theorem Status.completed_record (err : HostError) (f : Status) : (f.record err).completed = f.completed.record err := by
  cases err <;> rfl

/-- Drawing and completion read no flag, so an error before the engine step is still there after it, and alone (R161). -/
theorem State.engineStep_raise (err : HostError) (s : State) : (s.raise err).engineStep = s.engineStep.raise err := by
  have hstatus : (s.raise err).engineStep.status = (s.engineStep.raise err).status := Status.completed_record err s.status
  calc (s.raise err).engineStep
      = { s.engineStep with status := (s.raise err).engineStep.status } := rfl
    _ = s.engineStep.raise err := by rw [hstatus]; rfl

/-- Settles O6: CommandOverrun records CMDOVF, which is STATUS bit 9, and the engine step commutes with it. -/
theorem commandOverrunDiscards : Obligations.CommandOverrunDiscards := by
  intro s w rest h hbusy
  refine ⟨_, step_overrun h hbusy, rfl, ?_, State.engineStep_raise .commandOverrun (s.takeEvent rest)⟩
  rw [Status.read_getLsbD _ 9 (by norm_num)]
  simp

/-! ## The errors one step newly sets -/

/-- How many of the three error bits are 1 in `g` and not in `f`. -/
def newErrors (f g : Status) : Nat :=
  [(f.illcmd, g.illcmd), (f.cmdovf, g.cmdovf), (f.buserr, g.buserr)].countP fun b => !b.1 && b.2

/-- An error newly sets its own bit at most (R167). -/
theorem newErrors_record_le (err : HostError) (f : Status) : newErrors f (f.record err) ≤ 1 := by
  cases err <;> simp [newErrors, List.countP_cons, ite_le_one]

/-- No bit is new where none of the three changes. -/
theorem newErrors_self (f : Status) : newErrors f f = 0 := by
  simp [newErrors]

/-- A STATUS write newly sets nothing (R24). -/
theorem newErrors_clear (v : Word) (f : Status) : newErrors f (f.clear v) = 0 := by
  simp +contextual [newErrors]

/-- Nor does a reset (R42). -/
theorem newErrors_powerOn (f : Status) (p : Params) (draw : Nat) : newErrors f (State.powerOn p draw).status = 0 := by
  simp [newErrors, State.powerOn]

/-- A host effect raises one error or sets no error bit. -/
theorem HostEffect.newErrors_le {e : PortEvent} {s t : State} (heff : HostEffect e s t) :
    newErrors s.status t.status ≤ 1 := by
  cases heff with
  | refusedRead | refusedWrite | overrun | illegal => exact newErrors_record_le _ _
  | reset => exact (newErrors_powerOn _ s.params s.draws).trans_le zero_le_one
  | cleared v => exact (newErrors_clear v _).trans_le zero_le_one
  | _ => exact (newErrors_self _).trans_le zero_le_one

/-- At most one error bit is newly set by a step (R165); completion and no step set none. -/
theorem step_newErrors_le {s t : State} (h : step s = .next t) : newErrors s.status t.status ≤ 1 := by
  rcases step_cases h with ⟨-, rfl⟩ | ⟨-, -, rfl⟩ | ⟨e, rest, -, heff⟩
  · exact (newErrors_self _).trans_le zero_le_one
  · exact (newErrors_self _).trans_le zero_le_one
  · exact heff.newErrors_le

/-! ## The order of the errors -/

/-- Of the accesses at CMD's four offsets only the whole word at the first is legal (R49). -/
theorem not_legalWordAccess_of_partial_cmd {p : Params} {a width : Nat} (hlo : 0x4 ≤ a) (hhi : a < 0x8)
    (hpart : a ≠ 0x4 ∨ width ≠ 4) : ¬ LegalWordAccess p a width := by
  rintro ⟨hwidth, hal, -⟩
  omega

/-- Settles O12: a BusError wherever the access is not CMD's word, then BUSY before the word, and the step's count. -/
theorem errorPriority : Obligations.ErrorPriority := by
  refine ⟨fun s a width w rest h hlo hhi => ⟨fun hpart => ?busError, ?commandOverrun, ?illegalCommand⟩,
    fun s t h => step_newErrors_le h⟩
  case busError => exact step_writeAt_refused h (by omega) (not_legalWordAccess_of_partial_cmd hlo hhi hpart)
  case commandOverrun =>
    rintro rfl rfl hbusy
    exact step_overrun h hbusy
  case illegalCommand =>
    rintro rfl rfl hidle hno
    cases hd : decode w with
    | command i => exact absurd hd (hno i)
    | illegal why => exact step_illegal h hidle hd

end Sys2Proof.Machine
end

section
/-! PROOFS. The reset event (O21), and a host that keeps its duties (O35). -/

namespace Sys2Proof.Machine

/-! ## The reset event -/

/-- The step of a reset event is the reset input's. -/
theorem step_reset {s : State} {rest : List PortEvent} (h : s.Presents .reset rest) :
    step s = .next (s.takeEvent rest).resetInput :=
  step_presents h

/-- Parameters, draw count, replies and the events to come are all that a reset reads (R178). -/
theorem State.resetInput_congr {s s' : State} (hparams : s.params = s'.params) (hdraws : s.draws = s'.draws)
    (hreplies : s.replies = s'.replies) (hport : s.port = s'.port) : s.resetInput = s'.resetInput := by
  simp only [State.resetInput, hparams, hdraws, hreplies, hport]

/-- Settles O21: the registers are power-on's, whose BUSY = 0 leaves no engine step due, and memory is a fresh draw. -/
theorem resetAbandonsAndForgets : Obligations.ResetAbandonsAndForgets := by
  refine ⟨fun s rest h => ?registers, fun s s' rest h h' hparams hdraws hreplies => ?forgets⟩
  case registers =>
    exact ⟨_, step_reset h, rfl, rfl, rfl, rfl, rfl, rfl, engineDue_idle rfl, rfl, rfl⟩
  case forgets =>
    rw [step_reset h, step_reset h']
    exact congrArg _ (State.resetInput_congr hparams hdraws hreplies rfl)

/-! ## A host that keeps its duties -/

/-- A disciplined host's event does not disturb a draw in progress (R182, R184). -/
theorem State.disturbs_eq_false_of_disciplined {s : State} (h : s.Disciplined = true) (hbusy : s.status.busy = true)
    {e : PortEvent} {rest : List PortEvent} (hport : s.port = e :: rest) : disturbs s.params e = false := by
  simp only [State.Disciplined, hport, hbusy, Bool.true_and, Bool.not_eq_true', Bool.or_eq_false_iff] at h
  exact h.1

/-- No host effect while BUSY = 0 newly sets TAINT or CMDOVF (R151, R161). -/
theorem HostEffect.clean_of_idle {e : PortEvent} {s t : State} (heff : HostEffect e s t) (hidle : s.status.busy = false) :
    (t.taint = true → s.taint = true) ∧ (t.status.cmdovf = true → s.status.cmdovf = true) := by
  cases heff with
  | overrun w he hbusy => simp [hidle] at hbusy
  | cleared v => exact ⟨id, fun hset => (Bool.and_eq_true_iff.mp hset).1⟩
  | counted | stored => simp [hidle]
  | reset | accepted => simp [State.powerOn]
  | _ => exact ⟨id, id⟩

/-- Settles O35: a reset clears both bits and the engine step sets neither; while BUSY = 1 the event disturbs nothing, and while
BUSY = 0 no event sets them. -/
theorem disciplineKeepsDrawClean : Obligations.DisciplineKeepsDrawClean := by
  intro s t hdisciplined hstep
  by_cases hreset : ∃ rest, s.Presents .reset rest
  · obtain ⟨rest, hp⟩ := hreset
    rw [step_reset hp] at hstep
    obtain rfl := Host.Outcome.next.inj hstep
    exact ⟨nofun, nofun⟩
  rcases step_cases_of_no_reset hstep (not_exists.mp hreset) with ⟨-, rfl⟩ | ⟨-, rfl⟩ | ⟨e, rest, ⟨-, hport⟩, he, heff⟩
  · exact ⟨id, id⟩
  · exact ⟨id, id⟩
  cases hbusy : s.status.busy with
  | false => exact heff.clean_of_idle hbusy
  | true =>
    have hquiet := State.disturbs_eq_false_of_disciplined hdisciplined hbusy hport
    obtain ⟨-, -, -, -, -, -, htaint, hcmdovf, -⟩ := heff.quiet hbusy he hquiet
    exact ⟨htaint.symm.trans, hcmdovf⟩

end Sys2Proof.Machine
end
